-- ==== Sys2Proof/Word.lean ====
section
/-! DEFINITION. The word type of the block: a Bit and a BitVector as spec/00_scope.md rules R9 to R11 give
them. A BitVector is an "ordered sequence of Bit, fixed length once created"; its width is a construction
parameter, so the type is a list and the width is the list's length. The FIRST element of the list is
element 0 of R9, the most significant bit. -/

namespace Sys2Proof

/-- A Bit: a "binary digit, value ∈ (0,1); supports XOR" (R9, R80); `true` is 1. -/
abbrev Bit := Bool

/-- A BitVector (R9): its elements, element 0 (most significant) first. Its width is its length. -/
abbrev Bits := List Bit

/-- `zeros(n)`: the BitVector of width `n` with every bit 0 (R11, R95). -/
def zeros (n : Nat) : Bits := List.replicate n false

end Sys2Proof
end

