-- ==== Sys2Proof/Syntax.lean ====
section
/-! DEFINITION. The block's commands, the only instructions it has (spec/00_scope.md R2): one constructor for each
of the ten rows of spec/opcode_table.json, and what the outside world can put on the block's inputs
(spec/30_encoding.md R60, spec/70_reset_and_hazards.md R169). -/

namespace Sys2Proof

/-- BranchResult, "enum TAKEN, NOT_TAKEN" (R12): the response of PREDICT and the outcome UPDATE carries. -/
inductive BranchResult where
  | taken
  | notTaken
  deriving DecidableEq, Repr

/-- The ten commands (R2, R66). `addr` is the whole content of the BranchInstruction (R62); a PREDICT carries
nothing else, because the `actual` bit of its word is a don't-care and no different command (R67 a). -/
inductive Instr where
  | gagPredict (addr : Bits)
  | gagUpdate (addr : Bits) (actual : BranchResult)
  | pagPredict (addr : Bits)
  | pagUpdate (addr : Bits) (actual : BranchResult)
  | papPredict (addr : Bits)
  | papUpdate (addr : Bits) (actual : BranchResult)
  | pasPredict (addr : Bits)
  | pasUpdate (addr : Bits) (actual : BranchResult)
  | sapPredict (addr : Bits)
  | sapUpdate (addr : Bits) (actual : BranchResult)
  deriving DecidableEq, Repr

/-- What the caller presents to the block, one at a time (R60 a and c, R169): a command word on the command
port, or the reset input. -/
inductive Input where
  /-- The word `CW` on the command port (R61). -/
  | command (cw : Bits)
  /-- The reset input (R161). -/
  | reset
  deriving DecidableEq, Repr

end Sys2Proof
end

