-- ==== Sys2Proof/Machine/Bits.lean ====
section
/-! DEFINITION. The operations on BitVectors that the rules use: spec/00_scope.md R10 to R13. -/

namespace Sys2Proof

/-- `v⟨e⟩`, element number `e`, element 0 the most significant (R9); 0 past the end, where R9 gives no element. -/
def elem (v : Bits) (e : Nat) : Bit := v.getD e false

/-- `v[b]`, the bit of weight `2^b`: `v[b] = v⟨n−1−b⟩` (R10); 0 for `b ≥ n`, where R10 gives no bit. -/
def bit (v : Bits) (b : Nat) : Bit := if b < v.length then elem v (v.length - 1 - b) else false

/-- `v[hi:lo]`, the BitVector of width `hi−lo+1` whose bit `b` is `v[lo+b]` (R10). -/
def slice (v : Bits) (hi lo : Nat) : Bits := (v.drop (v.length - 1 - hi)).take (hi + 1 - lo)

/-- `val(v)`, the unsigned value, first element most significant (R10). It is also the BitVector-to-index helper of
R42 and R95. -/
def val : Bits → Nat
  | [] => 0
  | b :: v => b.toNat * 2 ^ v.length + val v

/-- `bits_n(k)`, the BitVector of width `n` with value `k` (R10); of a `k` past `2^n − 1` its low `n` bits, a case
no rule uses. -/
def bitsOf : Nat → Nat → Bits
  | 0, _ => []
  | n + 1, k => k.testBit n :: bitsOf n k

/-- `low(v, i)`, the low-order `i` bits, that is the last `i` elements (R11). -/
def low (v : Bits) (i : Nat) : Bits := v.drop (v.length - i)

/-- `msb(v) = v⟨0⟩`, the first element (R11). -/
def msb (v : Bits) : Bit := elem v 0

/-- `zext_N(v) = zeros(N−n) ++ v` (R13: defined for completeness, no rule uses it). -/
def zext (n : Nat) (v : Bits) : Bits := zeros (n - v.length) ++ v

/-- `tbit(r)`: 1 for TAKEN, 0 for NOT_TAKEN (R12). -/
def tbit : BranchResult → Bit
  | .taken => true
  | .notTaken => false

/-- `dir(b)`: TAKEN for 1, NOT_TAKEN for 0 (R12). -/
def dir : Bit → BranchResult
  | true => .taken
  | false => .notTaken

end Sys2Proof
end

