-- ==== Sys2Proof/Config.lean ====
section
/-! DEFINITION. The construction parameters of an instance (spec/00_scope.md R6, spec/30_encoding.md R64, R65). They
are "fixed at construction, not mutable afterward" (R28). The spec leaves every width open, so they are data that
State carries, not constants: every statement holds for every legal configuration. Which sets of them are legal and
the sizes that follow from them are in Machine/Params.lean. -/

namespace Sys2Proof

/-- `VARIANT`: which of the five state machines the instance is (R6, R64). -/
inductive Variant where
  | gag
  | pag
  | pap
  | pas
  | sap
  deriving DecidableEq, Repr

/-- The configuration record of a constructed instance (R6, R28, R65). `k` has a meaning only for PAs and SAp and
`ib` only for PAg, PAp and PAs; elsewhere the value is carried and no rule reads it (R65). -/
structure Config where
  /-- `VARIANT`. -/
  variant : Variant
  /-- `W`: the width of every branch history register. -/
  w : Nat
  /-- `S`: the width of every saturating counter and of `CTR`. -/
  s : Nat
  /-- `A`: the width of the address a command carries. -/
  a : Nat
  /-- `K`: the width of the XOR fold (PAs, SAp). -/
  k : Nat
  /-- `IB`: the width of the bank index (PAg, PAp, PAs). -/
  ib : Nat
  deriving DecidableEq, Repr

/-- What the caller supplies to a construction, legal or not (R8, R64, R141): the three-bit `VARIANT` strap and the
widths as integers, negative ones included. -/
structure Straps where
  variant : BitVec 3
  w : Int
  s : Int
  a : Int
  k : Int
  ib : Int
  deriving DecidableEq, Repr

/-- The configuration of the instance that `State.reset` shows: program P1's `.config GAg W=2 S=2 A=4`, with P3's
`K = 2` and the reference `IB = A` in the two places GAg ignores. DESIGN CHOICE (assumption log 1): the spec gives
no parameter a default. No rule and no meaning reads this constant. -/
def Config.reference : Config where
  variant := .gag
  w := 2
  s := 2
  a := 4
  k := 2
  ib := 4

end Sys2Proof
end

