-- ==== Sys2Proof/Machine/Params.lean ====
section
/-! DEFINITION. Which parameter sets make an instance, and the sizes that follow from them: spec/00_scope.md R6 to
R8, spec/30_encoding.md R64, spec/60_exceptions.md R141. -/

namespace Sys2Proof

/-- The value of the three-bit `VARIANT` strap (R64). -/
def Variant.code : Variant → BitVec 3
  | .gag => 0
  | .pag => 1
  | .pap => 2
  | .pas => 3
  | .sap => 4

/-- The variant a strap value selects; 5, 6 and 7 are reserved (R64). -/
def Variant.ofStrap (b : BitVec 3) : Option Variant :=
  if b = 0 then some .gag
  else if b = 1 then some .pag
  else if b = 2 then some .pap
  else if b = 3 then some .pas
  else if b = 4 then some .sap
  else none

/-- `K` is a parameter of PAs and SAp only (R6). -/
def Variant.takesK : Variant → Bool
  | .pas | .sap => true
  | .gag | .pag | .pap => false

/-- `IB` is a free parameter of PAg, PAp and PAs only (R6). -/
def Variant.takesIB : Variant → Bool
  | .pag | .pap | .pas => true
  | .gag | .sap => false

/-- The parameters are legal for the variant `v` (R141): `W`, `S`, `A` at least 1, `K` at least 1 where it is taken,
`1 ≤ IB ≤ A` where it is taken. There is no upper bound and `K > A` is legal (R8). -/
def Straps.legalFor (p : Straps) (v : Variant) : Bool :=
  decide (1 ≤ p.w) && decide (1 ≤ p.s) && decide (1 ≤ p.a) &&
    (!v.takesK || decide (1 ≤ p.k)) &&
    (!v.takesIB || (decide (1 ≤ p.ib) && decide (p.ib ≤ p.a)))

/-- The same list for the record of a constructed instance (R6, R8). -/
def Config.legal (c : Config) : Bool :=
  decide (1 ≤ c.w) && decide (1 ≤ c.s) && decide (1 ≤ c.a) &&
    (!c.variant.takesK || decide (1 ≤ c.k)) &&
    (!c.variant.takesIB || (decide (1 ≤ c.ib) && decide (c.ib ≤ c.a)))

/-- The record an instance of variant `v` keeps of its straps. A width the variant does not take is carried and read by
no rule (R65), so a negative one may be carried as 0. -/
def Straps.toConfig (p : Straps) (v : Variant) : Config where
  variant := v
  w := p.w.toNat
  s := p.s.toNat
  a := p.a.toNat
  k := p.k.toNat
  ib := p.ib.toNat

/-- The width of the bank index: `IB` for PAg, PAp and PAs, `K` for SAp (R6, R102); 0 for GAg, which has no bank. -/
def Config.bankIndexWidth (c : Config) : Nat :=
  match c.variant with
  | .gag => 0
  | .pag | .pap | .pas => c.ib
  | .sap => c.k

/-- The number of bank entries: `2^IB`, none in GAg (R7, R84). -/
def Config.bankEntries (c : Config) : Nat :=
  match c.variant with
  | .gag => 0
  | .pag | .pap | .pas | .sap => 2 ^ c.bankIndexWidth

/-- The width of `BHR`: `W` in GAg; the other variants have no `BHR` (R20), a register of no bits here. -/
def Config.bhrWidth (c : Config) : Nat :=
  match c.variant with
  | .gag => c.w
  | .pag | .pap | .pas | .sap => 0

/-- The width of the tag field of a PHT index (R43): none in GAg and PAg. -/
def Config.tagWidth (c : Config) : Nat :=
  match c.variant with
  | .gag | .pag => 0
  | .pap | .sap => c.a
  | .pas => c.k

/-- `X`, the PHT index width (R7, R104). -/
def Config.keyWidth (c : Config) : Nat := c.tagWidth + c.w

/-- The number of PHT cells, `2^X` (R7). -/
def Config.phtEntries (c : Config) : Nat := 2 ^ c.keyWidth

/-- The state bits of an instance without the checker state (R7): the history source, `CTR`, the PHT. -/
def Config.stateBits (c : Config) : Nat :=
  c.bhrWidth + c.w * c.bankEntries + c.s + c.s * c.phtEntries

end Sys2Proof
end

