-- ==== Sys2Proof/Machine/State.lean ====
section
/-! DEFINITION. The state of one instance (spec/10_state.md R20, R28) as plain data, its value after construction or
reset (R31), and why a step can stop (spec/60_exceptions.md R140). -/

namespace Sys2Proof.Machine

/-- The cells of one of the block's two index spaces (spec/20_memory.md R40): the cells that do not hold the reset
content, each under its cell number `val(index)` (R42), numbers strictly rising. A cell that is not listed holds the
reset content `zeros` (R31). Cells are not bytes (R41): each is one BitVector. -/
abbrev Cells := List (Nat × Bits)

/-- The state of an instance: every row of R20's table, the straps of R28, and two fields of the MODEL's own (the
caller's side of the interface, assumption log 3 and 4). -/
structure State where
  /-- `VARIANT`, `W`, `S`, `A`, `K`, `IB` (R28): read-only after construction. -/
  cfg : Config
  /-- `BHR`, `BitVector[W]` (R21): GAg only; a register of no bits in the other variants. -/
  bhr : Bits
  /-- `BANK`, `2^IB` entries of `BitVector[W]` (R22): PAg, PAp, PAs, SAp; no entries in GAg. -/
  bank : Cells
  /-- `PHT`, `2^X` cells of `BitVector[S]` (R23). -/
  pht : Cells
  /-- `CTR`, `BitVector[S]` (R24). -/
  ctr : Bits
  /-- `PEND` (R25): 1 is "outcome pending". -/
  pend : Bool
  /-- `PADDR`, `BitVector[A]` (R26). -/
  paddr : Bits
  /-- `PVIOL` (R27), sticky. -/
  pviol : Bool
  /-- MODEL'S OWN: what the caller presents from here on, next first (R29, R51: the command sequence is an input). -/
  inputs : List Input
  /-- MODEL'S OWN: the response port after the last input taken (R63): the bit `RSP` as a BranchResult after a
  PREDICT, nothing after an UPDATE or a reset. -/
  rsp : Option BranchResult
  deriving DecidableEq, Repr

/-- The errors of R140 that stop something. -/
inductive Fault where
  /-- Raised by construction only (R141): no instance exists. Safe: the spec's own outcome. -/
  | configurationError
  /-- A BitVector of the wrong width at the command port, a `load`, a bank write or a comparison (R142). Cannot arise
  in a constructed instance given words of `A + 2` bits. Safe: the spec's own outcome, and the instance is unusable
  afterwards (R146). -/
  | widthMismatch
  /-- An index past the entries of the bank or the PHT (R143). Cannot arise in a constructed instance. Safe: the
  spec's own outcome, and the instance is unusable afterwards (R146). -/
  | indexOutOfRange
  deriving DecidableEq, Repr

/-- Why the model gives no next state where the spec names no error. -/
inductive Refusal where
  /-- An instruction without a meaning in this model: raised by `exec` alone, and by no arm of it. Safe. -/
  | notModelled (mnemonic : String)
  /-- A command of another variant than the instance is: raised by every meaning. One instance implements exactly
  one variant (R2) and the decoder yields only commands of it (R66), so no word can ask for this. Safe. -/
  | otherVariant
  deriving DecidableEq, Repr

/-- The state of a freshly constructed instance with configuration `c` (R31, R160): everything zero. -/
def State.init (c : Config) : State where
  cfg := c
  bhr := zeros c.bhrWidth
  bank := []
  pht := []
  ctr := zeros c.s
  pend := false
  paddr := zeros c.a
  pviol := false
  inputs := []
  rsp := none

/-- The machine right after reset (R31, R161): the instance of `Config.reference` (assumption log 1), with nothing
presented to it. -/
def State.reset : State := State.init Config.reference

/-! The updates of one field, by name. -/

def State.withBhr (s : State) (v : Bits) : State := { s with bhr := v }
def State.withBank (s : State) (m : Cells) : State := { s with bank := m }
def State.withPht (s : State) (m : Cells) : State := { s with pht := m }
def State.withCtr (s : State) (v : Bits) : State := { s with ctr := v }
def State.withPend (s : State) (b : Bool) : State := { s with pend := b }
def State.withPaddr (s : State) (v : Bits) : State := { s with paddr := v }
def State.withPviol (s : State) (b : Bool) : State := { s with pviol := b }
def State.withInputs (s : State) (xs : List Input) : State := { s with inputs := xs }
def State.withRsp (s : State) (r : Option BranchResult) : State := { s with rsp := r }

end Sys2Proof.Machine
end

