-- ==== Sys2Proof/Machine/Ops.lean ====
section
/-! DEFINITION. The primitives the ten commands are built from: spec/40_primitives.md R80 to R95, over the cells of
spec/20_memory.md R40 to R47; and the reset of spec/70_reset_and_hazards.md R161. A primitive that JP gives an error
answers it here too (R142, R143), although no constructed instance can meet one. -/

namespace Sys2Proof.Machine

/-! ## The cells of an index space -/

/-- What cell `k` holds: `dflt`, the reset content, where the cell is not listed (R31, R46). -/
def Cells.read (dflt : Bits) : Cells → Nat → Bits
  | [], _ => dflt
  | (j, u) :: m, k => if j = k then u else Cells.read dflt m k

/-- Cell `k` takes the value `v`, and no other cell changes. A cell that holds `dflt` is not listed, so that two
index spaces with the same content are the same list. -/
def Cells.write (dflt : Bits) (k : Nat) (v : Bits) : Cells → Cells
  | [] => if v = dflt then [] else [(k, v)]
  | (j, u) :: m =>
    if k < j then (if v = dflt then (j, u) :: m else (k, v) :: (j, u) :: m)
    else if k = j then (if v = dflt then m else (k, v) :: m)
    else (j, u) :: Cells.write dflt k v m

/-- The canonical form of an index space with reset content `dflt`: numbers strictly rising, nothing listed that holds
`dflt`. -/
abbrev Cells.wf (dflt : Bits) (m : Cells) : Prop :=
  m.Pairwise (fun x y => x.1 < y.1) ∧ ∀ x ∈ m, x.2 ≠ dflt

/-- Every listed cell is one of the `n` cells and is `width` bits wide (R32 a and c). -/
abbrev Cells.within (n width : Nat) (m : Cells) : Prop :=
  ∀ x ∈ m, x.1 < n ∧ x.2.length = width

/-- What the PHT cell numbered `k` holds (R23, R42). -/
def State.phtCell (s : State) (k : Nat) : Bits := Cells.read (zeros s.cfg.s) s.pht k

/-- What the bank entry numbered `i` holds (R22, R42). -/
def State.bankCell (s : State) (i : Nat) : Bits := Cells.read (zeros s.cfg.w) s.bank i

/-! ## Bit, ShiftRegister -/

/-- `xor` on Bits (R80). -/
def bitXor (x y : Bit) : Bit := Bool.xor x y

/-- `load(v)` into a register that holds `r`: every element replaced, `WidthMismatch` when the widths differ (R82). -/
def loadReg (r v : Bits) : Except Fault Bits :=
  if v.length = r.length then .ok v else .error .widthMismatch

/-- `insert(b)`: `b` enters at the last element and the first element is lost; the width stays (R83). -/
def insertBit (r : Bits) (b : Bit) : Bits := (r ++ [b]).tail

/-! ## RegisterBank -/

/-- Bank `read(i)`: the entry numbered `val(i)`, `IndexOutOfRange` past the entries (R85). -/
def bankRead (s : State) (i : Bits) : Except Fault Bits :=
  if val i < s.cfg.bankEntries then .ok (s.bankCell (val i)) else .error .indexOutOfRange

/-- Bank `write(i, v)`: the entry numbered `val(i)` takes `v`; `IndexOutOfRange` past the entries, `WidthMismatch`
when `v` is not `W` bits (R86). -/
def bankWrite (s : State) (i v : Bits) : Except Fault State :=
  if val i < s.cfg.bankEntries then
    if v.length = s.cfg.w then .ok (s.withBank (Cells.write (zeros s.cfg.w) (val i) v s.bank))
    else .error .widthMismatch
  else .error .indexOutOfRange

/-! ## HistoryTable -/

/-- `setDefault(k, zeros(S))`, in this hardware `MemRead(PHT, k)`: the cell numbered `val(k)`, with no side effect
(R46, R88); `IndexOutOfRange` past the cells (R143). -/
def phtRead (s : State) (k : Bits) : Except Fault Bits :=
  if val k < s.cfg.phtEntries then .ok (s.phtCell (val k)) else .error .indexOutOfRange

/-- `put(k, v)`, `MemWrite(PHT, k, v)`: the cell numbered `val(k)` takes `v` whatever it held (R89);
`IndexOutOfRange` past the cells (R143). -/
def phtWrite (s : State) (k v : Bits) : Except Fault State :=
  if val k < s.cfg.phtEntries then .ok (s.withPht (Cells.write (zeros s.cfg.s) (val k) v s.pht))
  else .error .indexOutOfRange

/-! ## Saturating counter, XOR fold -/

/-- `advance(counter, tookBranch)`: one up or one down as an unsigned integer, clamped to `[0, 2^S − 1]` (R91). On
natural numbers `val c − 1` is already `max(val c − 1, 0)`. -/
def advance (c : Bits) (tookBranch : Bool) : Bits :=
  bitsOf c.length (if tookBranch then min (val c + 1) (2 ^ c.length - 1) else val c - 1)

/-- The direction of a counter, `dir(msb(c))` (R30, R92). -/
def direction (c : Bits) : BranchResult := dir (msb c)

/-- The loop of R93: the elements still to be read, numbered from `i` on, enter the accumulator `h` at `i mod K`. -/
def foldFrom (k : Nat) : Nat → Bits → Bits → Bits
  | _, h, [] => h
  | i, h, b :: rest => foldFrom k (i + 1) (h.modify (i % k) (fun x => bitXor x b)) rest

/-- `fold(bits, K)`: every input element `i` is XORed into position `i mod K` of `zeros(K)`, left to right (R93). -/
def fold (v : Bits) (k : Nat) : Bits := foldFrom k 0 (zeros k) v

/-! ## Reset -/

/-- The reset input: everything at its value of R31, the straps unchanged (R161). What the caller goes on to present
is the caller's and stays. -/
def resetInstance (s : State) : State := (State.init s.cfg).withInputs s.inputs

/-! ## The outcome of a command -/

/-- An error aborts the call and nothing is said of the state (R146); otherwise the command has completed. -/
def finish : Except Fault State → Host.Outcome State Fault Refusal
  | .ok s => .next s
  | .error f => .fault f

/-- The command port of a command of variant `v`: the instance must be of that variant (R2, R66) and the address must
have exactly `A` bits (R61, R142); then the command's transition is made. -/
def atPort (v : Variant) (addr : Bits) (s : State) (transition : Except Fault State) :
    Host.Outcome State Fault Refusal :=
  if s.cfg.variant = v then
    if addr.length = s.cfg.a then finish transition else .fault .widthMismatch
  else .refused .otherVariant

end Sys2Proof.Machine
end

