-- ==== Sys2Proof/Machine/Flags.lean ====
section
/-! DEFINITION. The checker registers `PEND`, `PADDR`, `PVIOL` (spec/10_state.md R25 to R27), the protocol state
machine they store (spec/41_common_state_machine.md R101, R110), the response port (spec/30_encoding.md R63) and the
error kinds (spec/60_exceptions.md R140, R144). -/

namespace Sys2Proof.Machine

/-! ## The error kinds -/

/-- The four kinds of R140. `protocolViolation` stops nothing: it is recorded in `PVIOL` (R144). -/
inductive ErrorKind where
  | configurationError
  | widthMismatch
  | indexOutOfRange
  | protocolViolation
  deriving DecidableEq, Repr

/-- The codes of R140; 0 is "none". -/
def ErrorKind.code : Option ErrorKind → Nat
  | none => 0
  | some .configurationError => 1
  | some .widthMismatch => 2
  | some .indexOutOfRange => 3
  | some .protocolViolation => 4

/-- The kind of an error that stops something (R140). -/
def Fault.kind : Fault → ErrorKind
  | .configurationError => .configurationError
  | .widthMismatch => .widthMismatch
  | .indexOutOfRange => .indexOutOfRange

/-- The error an instance has recorded (R144): a protocol violation while `PVIOL` is 1. -/
def State.recorded (s : State) : Option ErrorKind := if s.pviol then some .protocolViolation else none

/-! ## The checker -/

/-- The comparison of two BitVectors (R11), `WidthMismatch` when the widths differ (R142). -/
def compareBits (x y : Bits) : Except Fault Bool :=
  if x.length = y.length then .ok (decide (x = y)) else .error .widthMismatch

/-- The checker's part of PREDICT: `PEND <- 1`, `PADDR <- addr` (R101 a and c, R105). -/
def notePredict (addr : Bits) (s : State) : State := (s.withPend true).withPaddr addr

/-- The checker's part of UPDATE: `PVIOL <- 1` unless `PEND = 1` and `PADDR = addr`, then `PEND <- 0`
(R101 b and d, R106, R110). -/
def noteUpdate (addr : Bits) (s : State) : Except Fault State :=
  match compareBits s.paddr addr with
  | .ok same => .ok ((if s.pend && same then s else s.withPviol true).withPend false)
  | .error f => .error f

/-! ## The response port -/

/-- `return dir(msb(CTR))`: PREDICT's response, evaluated after the load of `CTR` (R30, R63). -/
def answer (s : State) : State := s.withRsp (some (direction s.ctr))

/-- UPDATE returns nothing (R63). -/
def noAnswer (s : State) : State := s.withRsp none

/-- `RSP`, the response as the bit on the port (R63); no bit after an UPDATE. -/
def State.rspBit (s : State) : Option Bit := s.rsp.map tbit

/-! ## The protocol state machine -/

/-- The two states of R101. -/
inductive Protocol where
  | idle
  | pending (addr : Bits)
  deriving DecidableEq, Repr

/-- The protocol state the checker registers store (R25, R26, R101). -/
def State.protocol (s : State) : Protocol := if s.pend then .pending s.paddr else .idle

/-- The next state of the protocol machine and whether the arc is legal, for a PREDICT (`none`) or an UPDATE of `addr`:
the table of R101. -/
def Protocol.arc (p : Protocol) (addr : Bits) (actual : Option BranchResult) : Protocol × Bool :=
  match actual, p with
  | none, _ => (.pending addr, true)
  | some _, .idle => (.idle, false)
  | some _, .pending b => (.idle, decide (addr = b))

end Sys2Proof.Machine
end

