-- ==== Sys2Proof/Machine/Operands.lean ====
section
/-! DEFINITION. How the operands of a command become indices: the derivation functions `bankidx`, `hist` and `key` of
spec/41_common_state_machine.md R102 to R104, shared by the five variants. -/

namespace Sys2Proof.Machine

/-- `bankidx(addr)`: the low-order `IB` bits in PAg, PAp and PAs, the fold in SAp (R102). Not defined in GAg, which has
no bank: there it is the index of no bits, and no command uses it. -/
def bankidx (c : Config) (addr : Bits) : Bits :=
  match c.variant with
  | .gag => []
  | .pag | .pap | .pas => low addr c.ib
  | .sap => fold addr c.k

/-- `hist(addr)`: the history register the address selects (R103). -/
def hist (s : State) (addr : Bits) : Except Fault Bits :=
  match s.cfg.variant with
  | .gag => .ok s.bhr
  | .pag | .pap | .pas | .sap => bankRead s (bankidx s.cfg addr)

/-- The tag in front of the history in a PHT key: nothing, the whole address, or its fold (R43, R104). -/
def keyTag (c : Config) (addr : Bits) : Bits :=
  match c.variant with
  | .gag | .pag => []
  | .pap | .sap => addr
  | .pas => fold addr c.k

/-- `key(addr)`: tag first, history last (R104). -/
def key (s : State) (addr : Bits) : Except Fault Bits :=
  match hist s addr with
  | .ok h => .ok (keyTag s.cfg addr ++ h)
  | .error f => .error f

end Sys2Proof.Machine
end

