-- ==== Sys2Proof/Machine/Common.lean ====
section
/-! DEFINITION. The two halves that the five variants share (spec/41_common_state_machine.md R100, R105, R106). Each
variant's own rule (Machine/Gag.lean to Machine/Sap.lean) forms the key and the bank index as its section writes them
out and then uses these. -/

namespace Sys2Proof.Machine

/-- PREDICT from the key on: `CTR <- MemRead(PHT, k)`, `PEND <- 1`, `PADDR <- addr`, return `dir(msb(CTR))` (R105). -/
def predictAt (k addr : Bits) (s : State) : Except Fault State := do
  let block ← phtRead s k
  let ctr ← loadReg s.ctr block
  return answer (notePredict addr (s.withCtr ctr))

/-- UPDATE of the table at the key `k`: `MemWrite(PHT, k, advance(CTR, actual = 1))`. `k` is the key formed from the
history before the update (R106, R107). -/
def trainAt (k : Bits) (actual : BranchResult) (s : State) : Except Fault State :=
  phtWrite s k (advance s.ctr (decide (actual = .taken)))

/-- UPDATE of the history in the bank variants: `BANK[i] <- insert(h, actual)` with the pre-update history `h`
(R106). -/
def shiftBank (i h : Bits) (actual : BranchResult) (s : State) : Except Fault State :=
  bankWrite s i (insertBit h (tbit actual))

/-- UPDATE of the history in GAg: `BHR <- insert(BHR, actual)` (R106, R116). -/
def shiftBhr (h : Bits) (actual : BranchResult) (s : State) : State := s.withBhr (insertBit h (tbit actual))

/-- Generic PREDICT (R105) in the terms of `key`. -/
def genericPredict (addr : Bits) (s : State) : Except Fault State := do
  let k ← key s addr
  predictAt k addr s

/-- Generic UPDATE (R106) in the terms of `hist`, `key` and `bankidx`. -/
def genericUpdate (addr : Bits) (actual : BranchResult) (s : State) : Except Fault State := do
  let s1 ← noteUpdate addr s
  let h ← hist s1 addr
  let k ← key s1 addr
  let s2 ← trainAt k actual s1
  match s.cfg.variant with
  | .gag => return noAnswer (shiftBhr h actual s2)
  | .pag | .pap | .pas | .sap => return noAnswer (← shiftBank (bankidx s.cfg addr) h actual s2)

end Sys2Proof.Machine
end

