-- ==== Sys2Proof/Machine/Gag.lean ====
section
/-! DEFINITION. GAg, global history and global table: spec/42_gag.md R115 to R117. -/

namespace Sys2Proof.Machine

/-- GAg.PREDICT (R115): the key is `BHR`. The address reaches the checker alone. -/
def execGagPredict (addr : Bits) (s : State) : Host.Outcome State Fault Refusal :=
  atPort .gag addr s (predictAt s.bhr addr s)

/-- GAg.UPDATE (R116): the cell at the pre-update `BHR` is written, then `BHR` shifts. -/
def execGagUpdate (addr : Bits) (actual : BranchResult) (s : State) : Host.Outcome State Fault Refusal :=
  atPort .gag addr s (do
    let s1 ← noteUpdate addr s
    let h := s1.bhr
    let s2 ← trainAt h actual s1
    return noAnswer (shiftBhr h actual s2))

end Sys2Proof.Machine
end

