-- ==== Sys2Proof/Machine/Pag.lean ====
section
/-! DEFINITION. PAg, per-address history and global table: spec/43_pag.md R120 to R122. -/

namespace Sys2Proof.Machine

/-- PAg.PREDICT (R120): the key is the history `BANK[low(addr, IB)]`. -/
def execPagPredict (addr : Bits) (s : State) : Host.Outcome State Fault Refusal :=
  atPort .pag addr s (do
    let i := low addr s.cfg.ib
    let h ← bankRead s i
    let k := h
    predictAt k addr s)

/-- PAg.UPDATE (R121): the cell at the pre-update `BANK[i]` is written, then `BANK[i]` shifts. -/
def execPagUpdate (addr : Bits) (actual : BranchResult) (s : State) : Host.Outcome State Fault Refusal :=
  atPort .pag addr s (do
    let s1 ← noteUpdate addr s
    let i := low addr s.cfg.ib
    let h ← bankRead s1 i
    let k := h
    let s2 ← trainAt k actual s1
    let s3 ← shiftBank i h actual s2
    return noAnswer s3)

end Sys2Proof.Machine
end

