-- ==== Sys2Proof/Machine/Pap.lean ====
section
/-! DEFINITION. PAp, per-address history and per-address table: spec/44_pap.md R125 to R127. -/

namespace Sys2Proof.Machine

/-- PAp.PREDICT (R125): the key is `addr ++ BANK[low(addr, IB)]`. -/
def execPapPredict (addr : Bits) (s : State) : Host.Outcome State Fault Refusal :=
  atPort .pap addr s (do
    let i := low addr s.cfg.ib
    let h ← bankRead s i
    let k := addr ++ h
    predictAt k addr s)

/-- PAp.UPDATE (R126): the cell at `addr ++` the pre-update `BANK[i]` is written, then `BANK[i]` shifts. -/
def execPapUpdate (addr : Bits) (actual : BranchResult) (s : State) : Host.Outcome State Fault Refusal :=
  atPort .pap addr s (do
    let s1 ← noteUpdate addr s
    let i := low addr s.cfg.ib
    let h ← bankRead s1 i
    let k := addr ++ h
    let s2 ← trainAt k actual s1
    let s3 ← shiftBank i h actual s2
    return noAnswer s3)

end Sys2Proof.Machine
end

