-- ==== Sys2Proof/Machine/Pas.lean ====
section
/-! DEFINITION. PAs, per-address history and hashed-set table: spec/45_pas.md R130 to R133. -/

namespace Sys2Proof.Machine

/-- PAs.PREDICT (R130): the key is `fold(addr, K) ++ BANK[low(addr, IB)]`. -/
def execPasPredict (addr : Bits) (s : State) : Host.Outcome State Fault Refusal :=
  atPort .pas addr s (do
    let i := low addr s.cfg.ib
    let h ← bankRead s i
    let k := fold addr s.cfg.k ++ h
    predictAt k addr s)

/-- PAs.UPDATE (R131): the cell at `fold(addr, K) ++` the pre-update `BANK[i]` is written, then `BANK[i]` shifts. -/
def execPasUpdate (addr : Bits) (actual : BranchResult) (s : State) : Host.Outcome State Fault Refusal :=
  atPort .pas addr s (do
    let s1 ← noteUpdate addr s
    let i := low addr s.cfg.ib
    let h ← bankRead s1 i
    let k := fold addr s.cfg.k ++ h
    let s2 ← trainAt k actual s1
    let s3 ← shiftBank i h actual s2
    return noAnswer s3)

end Sys2Proof.Machine
end

