-- ==== Sys2Proof/Machine/Sap.lean ====
section
/-! DEFINITION. SAp, hashed-set history and per-address table: spec/46_sap.md R135 to R138. -/

namespace Sys2Proof.Machine

/-- SAp.PREDICT (R135): the key is `addr ++ BANK[fold(addr, K)]`. -/
def execSapPredict (addr : Bits) (s : State) : Host.Outcome State Fault Refusal :=
  atPort .sap addr s (do
    let i := fold addr s.cfg.k
    let h ← bankRead s i
    let k := addr ++ h
    predictAt k addr s)

/-- SAp.UPDATE (R136): the cell at `addr ++` the set's pre-update `BANK[i]` is written, then `BANK[i]` shifts. -/
def execSapUpdate (addr : Bits) (actual : BranchResult) (s : State) : Host.Outcome State Fault Refusal :=
  atPort .sap addr s (do
    let s1 ← noteUpdate addr s
    let i := fold addr s.cfg.k
    let h ← bankRead s1 i
    let k := addr ++ h
    let s2 ← trainAt k actual s1
    let s3 ← shiftBank i h actual s2
    return noAnswer s3)

end Sys2Proof.Machine
end

