-- ==== Sys2Proof/Machine/Dispatch.lean ====
section
/-! DEFINITION. The meaning of each command, one arm a command (spec/30_encoding.md R66). -/

namespace Sys2Proof.Machine

def exec (i : Instr) (s : State) : Host.Outcome State Fault Refusal :=
  match i with
  | .gagPredict addr => Sys2Proof.Machine.execGagPredict addr s
  | .gagUpdate addr actual => Sys2Proof.Machine.execGagUpdate addr actual s
  | .pagPredict addr => Sys2Proof.Machine.execPagPredict addr s
  | .pagUpdate addr actual => Sys2Proof.Machine.execPagUpdate addr actual s
  | .papPredict addr => Sys2Proof.Machine.execPapPredict addr s
  | .papUpdate addr actual => Sys2Proof.Machine.execPapUpdate addr actual s
  | .pasPredict addr => Sys2Proof.Machine.execPasPredict addr s
  | .pasUpdate addr actual => Sys2Proof.Machine.execPasUpdate addr actual s
  | .sapPredict addr => Sys2Proof.Machine.execSapPredict addr s
  | .sapUpdate addr actual => Sys2Proof.Machine.execSapUpdate addr actual s

end Sys2Proof.Machine
end

