-- ==== Sys2Proof/WellFormed.lean ====
section
/-! DEFINITION. When a command is one that the command port of an instance can carry: spec/30_encoding.md R61, R62,
R66 and spec/60_exceptions.md R142. -/

namespace Sys2Proof

/-- The variant whose command it is (R2, R66). -/
def Instr.variant : Instr → Variant
  | .gagPredict _ => .gag
  | .gagUpdate _ _ => .gag
  | .pagPredict _ => .pag
  | .pagUpdate _ _ => .pag
  | .papPredict _ => .pap
  | .papUpdate _ _ => .pap
  | .pasPredict _ => .pas
  | .pasUpdate _ _ => .pas
  | .sapPredict _ => .sap
  | .sapUpdate _ _ => .sap

/-- The `addr` field of a command (R62). -/
def Instr.addr : Instr → Bits
  | .gagPredict addr => addr
  | .gagUpdate addr _ => addr
  | .pagPredict addr => addr
  | .pagUpdate addr _ => addr
  | .papPredict addr => addr
  | .papUpdate addr _ => addr
  | .pasPredict addr => addr
  | .pasUpdate addr _ => addr
  | .sapPredict addr => addr
  | .sapUpdate addr _ => addr

/-- The outcome an UPDATE carries; a PREDICT carries none (R62, R67 a). -/
def Instr.actual : Instr → Option BranchResult
  | .gagPredict _ => none
  | .gagUpdate _ actual => some actual
  | .pagPredict _ => none
  | .pagUpdate _ actual => some actual
  | .papPredict _ => none
  | .papUpdate _ actual => some actual
  | .pasPredict _ => none
  | .pasUpdate _ actual => some actual
  | .sapPredict _ => none
  | .sapUpdate _ actual => some actual

/-- The address has exactly `A` bits (R61, R142). -/
def Instr.addrFits (c : Config) (i : Instr) : Bool := i.addr.length == c.a

/-- The command is one of the variant the instance is (R2, R66). -/
def Instr.ofVariant (c : Config) (i : Instr) : Bool := i.variant == c.variant

/-- The command port of an instance with configuration `c` can carry the command. -/
def Instr.wf (c : Config) (i : Instr) : Bool := i.ofVariant c && i.addrFits c

end Sys2Proof
end

