-- ==== Sys2Proof/Decode.lean ====
section
/-! DEFINITION. The command word `CW` of `A + 2` bits: spec/30_encoding.md R61, R64, R66 to R68. `CW[0]` is `op`,
`CW[1]` is `actual`, `CW[A+1:2]` is `addr`. The variant is not in the word: the instance's strap gives it. -/

namespace Sys2Proof

/-- Why a word is not a command of the instance. -/
inductive DecodeError where
  /-- The word has not the `A + 2` bits of every command word of the instance (R68). -/
  | wrongLength
  deriving DecidableEq, Repr

/-- The PREDICT command of a variant (R66). -/
def predictOf (v : Variant) (addr : Bits) : Instr :=
  match v with
  | .gag => .gagPredict addr
  | .pag => .pagPredict addr
  | .pap => .papPredict addr
  | .pas => .pasPredict addr
  | .sap => .sapPredict addr

/-- The UPDATE command of a variant (R66). -/
def updateOf (v : Variant) (addr : Bits) (actual : BranchResult) : Instr :=
  match v with
  | .gag => .gagUpdate addr actual
  | .pag => .pagUpdate addr actual
  | .pap => .papUpdate addr actual
  | .pas => .pasUpdate addr actual
  | .sap => .sapUpdate addr actual

/-- The command a word is to an instance with configuration `c` (R61, R66). Every word of `A + 2` bits is exactly
one command; `CW[1]` of a PREDICT is not looked at (R67 a); a word of another length is none (R68). -/
def decode (c : Config) (cw : Bits) : Except DecodeError Instr :=
  if cw.length = c.a + 2 then
    let addr := slice cw (c.a + 1) 2
    if bit cw 0 then .ok (updateOf c.variant addr (dir (bit cw 1)))
    else .ok (predictOf c.variant addr)
  else .error .wrongLength

/-- The bits `CW[1:0]` of a PREDICT, `actual` first: the canonical encoding has `actual` 0 (R61, R67 a). -/
def predictTail : Bits := [false, false]

/-- The bits `CW[1:0]` of an UPDATE, `actual` first (R61). -/
def updateTail (actual : BranchResult) : Bits := [tbit actual, true]

/-- The canonical command word of a command (R61). -/
def encode : Instr → Bits
  | .gagPredict addr => addr ++ predictTail
  | .gagUpdate addr actual => addr ++ updateTail actual
  | .pagPredict addr => addr ++ predictTail
  | .pagUpdate addr actual => addr ++ updateTail actual
  | .papPredict addr => addr ++ predictTail
  | .papUpdate addr actual => addr ++ updateTail actual
  | .pasPredict addr => addr ++ predictTail
  | .pasUpdate addr actual => addr ++ updateTail actual
  | .sapPredict addr => addr ++ predictTail
  | .sapUpdate addr actual => addr ++ updateTail actual

/-- The two commands of the pseudo-instruction `branch <addr>, T|N` (R71): one transaction. -/
def branchOf (v : Variant) (addr : Bits) (actual : BranchResult) : List Instr :=
  [predictOf v addr, updateOf v addr actual]

/-- A number as a word at the command port of an instance whose addresses have `a` bits: the word of `a + 2` bits
with that value, or, where the number needs more bits, a word too long for the port, which no decoding accepts. -/
def portWord (a nbits w : Nat) : Bits :=
  if w < 2 ^ (a + 2) then bitsOf (a + 2) w else bitsOf (max nbits (a + 3)) w

/-- The opcode table's word `w` as the instance of `Config.reference` reads it. The table gives the five variants
the same words (R66: match and mask are the same in every variant), and this function is given no strap, so it
answers the reference instance's command (assumption log 2). -/
def decodeTableWord (nbits w : Nat) : Option Instr :=
  match decode Config.reference (portWord Config.reference.a nbits w) with
  | .ok i => some i
  | .error _ => none

end Sys2Proof
end

