-- ==== Sys2Proof/Machine/Port.lean ====
section
/-! DEFINITION. What `step` does around a command: taking one input off the caller's sequence, and reading the word on
the command port (spec/30_encoding.md R60, R61; spec/20_memory.md R48). -/

namespace Sys2Proof.Machine

/-- The command on the port, read under the instance's straps (R66). A word that has not `A + 2` bits carries no
address of `A` bits and cannot be presented: `WidthMismatch`, which aborts the call (R142). -/
def readPort (s : State) (cw : Bits) : Except Fault Instr :=
  match decode s.cfg cw with
  | .ok i => .ok i
  | .error .wrongLength => .error .widthMismatch

/-- Putting the opcode table's word `w` next on the command port. -/
def presentWord (s : State) (nbits w : Nat) : State :=
  s.withInputs (.command (portWord s.cfg.a nbits w) :: s.inputs)

end Sys2Proof.Machine
end

