-- ==== Sys2Proof/Machine/Step.lean ====
section
/-! DEFINITION. One step of the block: the caller's next input, taken whole (spec/20_memory.md R48, R49). There is no
program counter and nothing is fetched (spec/10_state.md R29, spec/20_memory.md R51). -/

namespace Sys2Proof.Machine

/-- One atomic transition. With nothing presented, nothing happens: "nothing happens to an instance except as the
direct effect of a command or of reset" (spec/60_exceptions.md R149, R170; assumption log 3). -/
def step (s : State) : Host.Outcome State Fault Refusal :=
  match s.inputs with
  | [] => .next s
  | .reset :: rest => .next (resetInstance (s.withInputs rest))
  | .command cw :: rest =>
    match readPort s cw with
    | .ok i => exec i (s.withInputs rest)
    | .error f => .fault f

/-- The state in which the opcode table's word `w` is the next thing on the command port (assumption log 2 and 3). -/
def State.withFetchWord (s : State) (nbits w : Nat) : State := presentWord s nbits w

end Sys2Proof.Machine
end

