-- ==== Sys2Proof/Machine/Construct.lean ====
section
/-! DEFINITION. Construction, "a partial function from parameters to an initial state" (spec/60_exceptions.md R141,
spec/70_reset_and_hazards.md R160, spec/30_encoding.md R64, R65). -/

namespace Sys2Proof.Machine

/-- Construction: the reset state of the instance, or `ConfigurationError` and no instance (R141, R160). -/
def construct (p : Straps) : Except Fault State :=
  match Variant.ofStrap p.variant with
  | none => .error .configurationError
  | some v => if p.legalFor v then .ok (State.init (p.toConfig v)) else .error .configurationError

end Sys2Proof.Machine
end

