-- ==== Sys2Proof/Machine/Run.lean ====
section
/-! DEFINITION. A run (spec/70_reset_and_hazards.md R170): a finite sequence of inputs applied one after another, the
state it ends in, and the responses it emits ("the core emits one BranchResult per predict call"). -/

namespace Sys2Proof.Machine

/-- The transition of one input. -/
def stepOn (x : Input) (s : State) : Host.Outcome State Fault Refusal := step (s.withInputs [x])

/-- The transitions of a sequence of inputs, stopping at the first error. -/
def runOn : List Input → State → Host.Outcome State Fault Refusal
  | [], s => .next s
  | x :: xs, s =>
    match stepOn x s with
    | .next t => runOn xs t
    | .fault f => .fault f
    | .refused r => .refused r

/-- The responses of a run, first command first: one for each PREDICT, none for an UPDATE or a reset (R63). -/
def responses : List Input → State → List BranchResult
  | [], _ => []
  | x :: xs, s =>
    match stepOn x s with
    | .next t => t.rsp.toList ++ responses xs t
    | .fault _ => []
    | .refused _ => []

/-- The next state, where there is one. -/
def nextState : Host.Outcome State Fault Refusal → Option State
  | .next t => some t
  | .fault _ => none
  | .refused _ => none

/-- The inputs that present commands one after another, each in its canonical word. -/
def present (is : List Instr) : List Input := is.map (fun i => .command (encode i))

end Sys2Proof.Machine
end

