-- ==== Sys2Proof/Machine/Assembler.lean ====
section
/-! DEFINITION. The textual form of commands and programs: spec/30_encoding.md R70, R71. A line is a list of
characters; text after `;` is a comment. A comma is a token of its own, so that it must stand where R70 puts it
(assumption log 6). -/

namespace Sys2Proof.Machine

/-! ## Tokens -/

/-- The part of a line before its comment (R70). -/
def stripComment (line : List Char) : List Char := line.takeWhile (fun ch => ch != ';')

/-- The token read so far, if any. -/
def flush (cur : List Char) : List (List Char) := if cur.isEmpty then [] else [cur]

/-- The tokens of a line: spaces and tabs separate them, a comma is one by itself. -/
def tokensFrom : List Char → List Char → List (List Char)
  | cur, [] => flush cur
  | cur, ch :: rest =>
    if ch == ' ' || ch == '\t' then flush cur ++ tokensFrom [] rest
    else if ch == ',' then flush cur ++ ([','] :: tokensFrom [] rest)
    else tokensFrom (cur ++ [ch]) rest

/-- The tokens of a line without its comment. -/
def tokens (line : List Char) : List (List Char) := tokensFrom [] (stripComment line)

/-! ## Fields -/

/-- A binary digit. -/
def binaryDigit (ch : Char) : Option Bit :=
  if ch == '0' then some false else if ch == '1' then some true else none

/-- A string of binary digits, first element leftmost (R9, R70). -/
def binaryDigits : List Char → Option Bits
  | [] => some []
  | ch :: rest =>
    match binaryDigit ch, binaryDigits rest with
    | some b, some v => some (b :: v)
    | _, _ => none

/-- The optional `0b` in front of an address (R70). -/
def dropRadix : List Char → List Char
  | '0' :: 'b' :: rest => rest
  | t => t

/-- An `<addr>` of exactly `a` binary digits (R70). -/
def parseAddr (a : Nat) (t : List Char) : Option Bits :=
  match binaryDigits (dropRadix t) with
  | some v => if v.length = a then some v else none
  | none => none

/-- An outcome, `T` or `N` (R70). -/
def parseOutcome (t : List Char) : Option BranchResult :=
  if t = ['T'] then some .taken else if t = ['N'] then some .notTaken else none

/-- A number in decimal digits, `acc` the value of those read so far. -/
def decimalFrom : Nat → List Char → Option Nat
  | acc, [] => some acc
  | acc, ch :: rest => if ch.isDigit then decimalFrom (10 * acc + (ch.toNat - '0'.toNat)) rest else none

/-- A configuration field `<name>=<n>` (R70). DESIGN CHOICE (assumption log 6): R70 gives `<n>` neither radix nor sign;
here it is one or more decimal digits without a sign, leading zeros allowed, so a negative number is no field. -/
def parseField (name t : List Char) : Option Nat :=
  if (name ++ ['=']).isPrefixOf t then
    match t.drop (name.length + 1) with
    | [] => none
    | digits => decimalFrom 0 digits
  else none

/-- A variant by its name (R70). -/
def parseVariant (t : List Char) : Option Variant :=
  if t = ['G', 'A', 'g'] then some .gag
  else if t = ['P', 'A', 'g'] then some .pag
  else if t = ['P', 'A', 'p'] then some .pap
  else if t = ['P', 'A', 's'] then some .pas
  else if t = ['S', 'A', 'p'] then some .sap
  else none

/-! ## Lines -/

/-- The commands of one line for an instance of configuration `c`: none for a blank line, two for `branch` (R71), and no
answer for a line that is none of R70 and R71. -/
def assembleLine (c : Config) (line : List Char) : Option (List Instr) :=
  match tokens line with
  | [] => some []
  | [op, a] =>
    if op = ['p', 'r', 'e', 'd', 'i', 'c', 't'] then
      match parseAddr c.a a with
      | some addr => some [predictOf c.variant addr]
      | none => none
    else none
  | [op, a, comma, o] =>
    match parseAddr c.a a, parseOutcome o with
    | some addr, some actual =>
      if comma = [','] then
        if op = ['u', 'p', 'd', 'a', 't', 'e'] then some [updateOf c.variant addr actual]
        else if op = ['b', 'r', 'a', 'n', 'c', 'h'] then some (branchOf c.variant addr actual)
        else none
      else none
    | _, _ => none
  | _ => none

/-- The optional fields `[K=<n>] [IB=<n>]` of the configuration line, in that order (R70). -/
def parseOptions : List (List Char) → Option (Option Nat × Option Nat)
  | [] => some (none, none)
  | [t] =>
    match parseField ['K'] t, parseField ['I', 'B'] t with
    | some k, _ => some (some k, none)
    | none, some ib => some (none, some ib)
    | none, none => none
  | [t, u] =>
    match parseField ['K'] t, parseField ['I', 'B'] u with
    | some k, some ib => some (some k, some ib)
    | _, _ => none
  | _ => none

/-- The straps of a configuration: an omitted `IB` is `A`, or `K` for SAp (R70); an omitted `K` is 0, which construction
rejects where `K` is taken. -/
def strapsOf (v : Variant) (w s a : Nat) (k ib : Option Nat) : Straps where
  variant := v.code
  w := w
  s := s
  a := a
  k := (k.getD 0 : Nat)
  ib := (ib.getD (if v = .sap then k.getD 0 else a) : Nat)

/-- A configuration line `.config <VARIANT> W=<n> S=<n> A=<n> [K=<n>] [IB=<n>]` (R70). -/
def parseConfig (line : List Char) : Option Straps :=
  match tokens line with
  | head :: v :: w :: s :: a :: options =>
    if head = ['.', 'c', 'o', 'n', 'f', 'i', 'g'] then
      match parseVariant v, parseField ['W'] w, parseField ['S'] s, parseField ['A'] a, parseOptions options with
      | some v, some w, some s, some a, some (k, ib) => some (strapsOf v w s a k ib)
      | _, _, _, _, _ => none
    else none
  | _ => none

/-- The commands of the lines after the configuration line, in order. -/
def assembleLines (c : Config) : List (List Char) → Option (List Instr)
  | [] => some []
  | line :: rest =>
    match assembleLine c line, assembleLines c rest with
    | some is, some js => some (is ++ js)
    | _, _ => none

/-- A program: a configuration line and command lines (R70). The result is the constructed instance with the program's
commands presented to it; no result where the text is no program or its parameters make no instance. DESIGN CHOICE
(assumption log 6): a program is "headed by" its configuration line, and here that line is the very first one: no blank
or comment line stands before it, while such lines may stand anywhere after it. -/
def assemble : List (List Char) → Option State
  | [] => none
  | header :: lines =>
    match parseConfig header with
    | none => none
    | some p =>
      match construct p with
      | .error _ => none
      | .ok s => (assembleLines s.cfg lines).map (fun is => s.withInputs (present is))

/-! ## Writing a command -/

/-- A binary digit as a character. -/
def digitChar (b : Bit) : Char := if b then '1' else '0'

/-- An outcome as R70 writes it. -/
def outcomeText : BranchResult → List Char
  | .taken => ['T']
  | .notTaken => ['N']

/-- The line of R70 for a command. -/
def lineOf (addr : Bits) (actual : Option BranchResult) : List Char :=
  match actual with
  | none => ['p', 'r', 'e', 'd', 'i', 'c', 't', ' '] ++ addr.map digitChar
  | some r => ['u', 'p', 'd', 'a', 't', 'e', ' '] ++ addr.map digitChar ++ [',', ' '] ++ outcomeText r

end Sys2Proof.Machine
end

