-- ==== Sys2Proof/Safety.lean ====
section
/-! DEFINITION. What claims about the block are stated in: the invariants of spec/10_state.md R32, the caller's
protocol of spec/41_common_state_machine.md R101 as a property of a command sequence (spec/70_reset_and_hazards.md R163
to R165, R170), and the outcomes a history register has seen (spec/10_state.md R21, R22). -/

namespace Sys2Proof.Machine

/-- The invariant of a constructed instance (R32): the parameters are legal (R8), every register has its width, both
index spaces are in canonical form and within their size. -/
structure State.Inv (s : State) : Prop where
  legal : s.cfg.legal = true
  bhr_width : s.bhr.length = s.cfg.bhrWidth
  bank_wf : Cells.wf (zeros s.cfg.w) s.bank
  bank_within : Cells.within s.cfg.bankEntries s.cfg.w s.bank
  pht_wf : Cells.wf (zeros s.cfg.s) s.pht
  pht_within : Cells.within s.cfg.phtEntries s.cfg.s s.pht
  ctr_width : s.ctr.length = s.cfg.s
  paddr_width : s.paddr.length = s.cfg.a

/-- The state after a completed PREDICT of `addr` that used the key `k` (R105): `CTR` holds the cell, `PEND` is 1,
`PADDR` is the address, the response is the direction of the cell, and nothing else has changed (R111). -/
def afterPredict (s : State) (addr k : Bits) : State :=
  { s with
    ctr := s.phtCell (val k)
    pend := true
    paddr := addr
    rsp := some (dir (msb (s.phtCell (val k)))) }

/-- What every completed UPDATE of `addr` that used the key `k` leaves (R106, R110), its history register apart. -/
structure Trained (s t : State) (addr : Bits) (actual : BranchResult) (k : Bits) : Prop where
  cell : t.phtCell (val k) = advance s.ctr (decide (actual = .taken))
  other_cells : ∀ j, j ≠ val k → t.phtCell j = s.phtCell j
  ctr : t.ctr = s.ctr
  pend : t.pend = false
  paddr : t.paddr = s.paddr
  pviol : t.pviol = (s.pviol || !(s.pend && decide (s.paddr = addr)))
  cfg : t.cfg = s.cfg
  inputs : t.inputs = s.inputs
  rsp : t.rsp = none

/-- What UPDATE does to the history register in GAg (R106, R116). -/
structure ShiftedBhr (s t : State) (actual : BranchResult) : Prop where
  bhr : t.bhr = insertBit s.bhr (tbit actual)
  bank : t.bank = s.bank

/-- What UPDATE does to the history registers in the bank variants, where it selects the entry numbered `val i`
(R106). -/
structure ShiftedBank (s t : State) (actual : BranchResult) (i : Bits) : Prop where
  entry : t.bankCell (val i) = insertBit (s.bankCell (val i)) (tbit actual)
  other_entries : ∀ j, j ≠ val i → t.bankCell j = s.bankCell j
  bhr : t.bhr = s.bhr

/-- While a prediction is pending, `CTR` holds the PHT cell that the pending address selects, and the response port
shows its direction (R24, R108). -/
def State.PendingCounter (s : State) : Prop :=
  s.pend = true →
    (∃ k, key s s.paddr = .ok k ∧ phtRead s k = .ok s.ctr) ∧ s.rsp = some (direction s.ctr)

/-- The commands are legal arcs of R101, one after another, from the protocol state `p`. -/
def legalRun : Protocol → List Instr → Bool
  | _, [] => true
  | p, i :: is => (p.arc i.addr i.actual).2 && legalRun (p.arc i.addr i.actual).1 is

/-- The outcomes of the UPDATEs whose address is selected by `sel`, oldest first, as the bits UPDATE inserts. -/
def outcomes (sel : Bits → Bool) : List Instr → Bits
  | [] => []
  | i :: is =>
    match i.actual with
    | some r => if sel i.addr then tbit r :: outcomes sel is else outcomes sel is
    | none => outcomes sel is

/-- Every command of the sequence is one the instance's port can carry. -/
def allFit (c : Config) (is : List Instr) : Bool := is.all (fun i => i.wf c)

end Sys2Proof.Machine
end

