-- ==== Sys2Proof/Certificates/Slice0/Obligations.lean ====
section
/-! DEFINITION. The statements for the provers, each about every configuration the block can be constructed with. -/

open Sys2Proof Sys2Proof.Machine

/-! ## Encoding -/

/-- R61, R66: the decoder gives back every command that the port of an instance can carry from its word. -/
def Obligations.EncodedCommandDecodesBack : Prop :=
  ∀ (c : Config) (i : Instr), i.wf c = true → decode c (encode i) = .ok i

/-- R61, R62: where the fields of a word stand, and the word as a number. -/
def Obligations.CommandWordFields : Prop :=
  ∀ (c : Config) (cw : Bits), cw.length = c.a + 2 →
    ∃ addr : Bits, addr.length = c.a ∧ (∀ b, b < c.a → bit addr b = bit cw (b + 2)) ∧
      val cw = val addr * 4 + (bit cw 1).toNat * 2 + (bit cw 0).toNat ∧
      (bit cw 0 = false → decode c cw = .ok (predictOf c.variant addr)) ∧
      (bit cw 0 = true → decode c cw = .ok (updateOf c.variant addr (if bit cw 1 then .taken else .notTaken)))

/-- R66, R68: every word of `A + 2` bits is exactly one command, of the instance's variant and with `CW[0]` its
operation; a word of another length is refused by name. -/
def Obligations.EveryPortWordIsOneCommand : Prop :=
  ∀ (c : Config) (cw : Bits),
    (cw.length = c.a + 2 →
      ∃ i : Instr, decode c cw = .ok i ∧ i.wf c = true ∧ i.actual.isSome = bit cw 0) ∧
    (cw.length ≠ c.a + 2 → decode c cw = .error .wrongLength)

/-- R67 (a): two PREDICT words that differ in `CW[1]` make the same step from the same state. -/
def Obligations.PredictIgnoresActualBit : Prop :=
  ∀ (s : State) (addr : Bits) (b b' : Bit) (rest : List Input), addr.length = s.cfg.a →
    step (s.withInputs (.command (addr ++ [b, false]) :: rest)) =
      step (s.withInputs (.command (addr ++ [b', false]) :: rest))

/-- R61, R64: words of spec/95_test_vectors.md, one for each variant and operation, as the decoder reads them. -/
def Obligations.SampleWordsDecode : Prop :=
  decode ⟨.gag, 2, 2, 4, 0, 0⟩ [true, false, true, true, false, false] = .ok (.gagPredict [true, false, true, true]) ∧
  decode ⟨.gag, 2, 2, 4, 0, 0⟩ [true, false, true, true, false, true] =
    .ok (.gagUpdate [true, false, true, true] .notTaken) ∧
  decode ⟨.pag, 2, 2, 2, 0, 2⟩ [true, false, false, false] = .ok (.pagPredict [true, false]) ∧
  decode ⟨.pag, 2, 2, 2, 0, 2⟩ [false, true, true, true] = .ok (.pagUpdate [false, true] .taken) ∧
  decode ⟨.pap, 1, 2, 2, 0, 2⟩ [true, true, false, false] = .ok (.papPredict [true, true]) ∧
  decode ⟨.pap, 1, 2, 2, 0, 2⟩ [true, true, true, true] = .ok (.papUpdate [true, true] .taken) ∧
  decode ⟨.pas, 2, 2, 4, 2, 4⟩ [true, false, false, true, false, false] = .ok (.pasPredict [true, false, false, true]) ∧
  decode ⟨.pas, 2, 2, 4, 2, 4⟩ [false, false, true, true, true, true] =
    .ok (.pasUpdate [false, false, true, true] .taken) ∧
  decode ⟨.sap, 2, 2, 4, 2, 0⟩ [false, true, false, true, false, false] = .ok (.sapPredict [false, true, false, true]) ∧
  decode ⟨.sap, 2, 2, 4, 2, 0⟩ [false, false, true, true, false, true] =
    .ok (.sapUpdate [false, false, true, true] .notTaken)

/-- R64: the strap values of the five variants, constant for the life of the instance; 5, 6 and 7 are reserved and make
no instance. -/
def Obligations.VariantStrapValues : Prop :=
  Variant.ofStrap 0 = some .gag ∧ Variant.ofStrap 1 = some .pag ∧ Variant.ofStrap 2 = some .pap ∧
  Variant.ofStrap 3 = some .pas ∧ Variant.ofStrap 4 = some .sap ∧
  (∀ p : Straps, 5 ≤ p.variant.toNat → construct p = .error .configurationError) ∧
  ∀ s t : State, step s = .next t → t.cfg.variant = s.cfg.variant

/-! ## One step -/

/-- R48, R66: when the next input is a word that decodes to a command, the step is that command's meaning, with the word
taken off the caller's sequence. -/
def Obligations.StepRunsTheDecodedCommand : Prop :=
  ∀ (s : State) (cw : Bits) (rest : List Input) (i : Instr),
    s.inputs = .command cw :: rest → decode s.cfg cw = .ok i → step s = exec i (s.withInputs rest)

/-- The model's choice (assumption log 3): with nothing presented a step changes nothing. -/
def Obligations.StepWithoutInputChangesNothing : Prop :=
  ∀ s : State, s.inputs = [] → step s = .next s

/-- R142 as the model represents it (assumption log 5): a word or an address of the wrong width aborts the call with
`WidthMismatch`. -/
def Obligations.WrongWidthAborts : Prop :=
  (∀ (s : State) (cw : Bits) (rest : List Input),
    s.inputs = .command cw :: rest → cw.length ≠ s.cfg.a + 2 → step s = .fault .widthMismatch) ∧
  ∀ (s : State) (i : Instr),
    i.variant = s.cfg.variant → i.addr.length ≠ s.cfg.a → exec i s = .fault .widthMismatch

/-- R2, R66 as the model represents them (assumption log 5): a command of another variant is no command of the
instance, and the decoder never yields one. -/
def Obligations.OtherVariantsCommandIsRefused : Prop :=
  (∀ (s : State) (i : Instr), i.variant ≠ s.cfg.variant → exec i s = .refused .otherVariant) ∧
  ∀ (s : State) (cw : Bits) (i : Instr), readPort s cw = .ok i → i.variant = s.cfg.variant

/-- R161: the reset input puts everything at its value of R31 whatever the state was, leaves the straps, and gives what
a fresh construction with the same parameters gives. The caller's sequence and the response port are the model's own
fields (assumption log 3 and 4): that the reset takes itself off the first and leaves nothing on the second, where it
returns nothing (R169), is the model's choice. -/
def Obligations.ResetInputRestoresConstruction : Prop :=
  ∀ (s : State) (rest : List Input), s.inputs = .reset :: rest →
    ∃ t : State, step s = .next t ∧ t.cfg = s.cfg ∧ t.bhr = zeros s.cfg.bhrWidth ∧
      (∀ j, t.bankCell j = zeros s.cfg.w) ∧ (∀ j, t.phtCell j = zeros s.cfg.s) ∧ t.ctr = zeros s.cfg.s ∧
      t.pend = false ∧ t.paddr = zeros s.cfg.a ∧ t.pviol = false ∧ t.inputs = rest ∧ t.rsp = none ∧
      ∀ (p : Straps) (u : State), construct p = .ok u → u.cfg = s.cfg → t = u.withInputs rest

/-! ## Construction -/

/-- R141: exactly which parameters make an instance, and the one error the others raise, which no step raises. -/
def Obligations.ConstructionLegality : Prop :=
  ∀ p : Straps,
    ((∃ s, construct p = .ok s) ↔
      p.variant.toNat ≤ 4 ∧ 1 ≤ p.w ∧ 1 ≤ p.s ∧ 1 ≤ p.a ∧
        (p.variant.toNat = 3 ∨ p.variant.toNat = 4 → 1 ≤ p.k) ∧
        (p.variant.toNat = 1 ∨ p.variant.toNat = 2 ∨ p.variant.toNat = 3 → 1 ≤ p.ib ∧ p.ib ≤ p.a)) ∧
    (∀ f, construct p = .error f → f = .configurationError) ∧
    ∀ s : State, step s ≠ .fault .configurationError

/-- R31: the value of every piece of state after construction. -/
def Obligations.ConstructedInstanceIsZero : Prop :=
  ∀ (p : Straps) (s : State), construct p = .ok s →
    s.cfg.variant.code = p.variant ∧ (s.cfg.w : Int) = p.w ∧ (s.cfg.s : Int) = p.s ∧ (s.cfg.a : Int) = p.a ∧
    (s.cfg.variant.takesK = true → (s.cfg.k : Int) = p.k) ∧
    (s.cfg.variant.takesIB = true → (s.cfg.ib : Int) = p.ib) ∧
    (s.cfg.variant = .gag → s.bhr = zeros s.cfg.w) ∧
    (∀ j, j < s.cfg.bankEntries → s.bankCell j = zeros s.cfg.w) ∧
    (∀ j, j < s.cfg.phtEntries → s.phtCell j = zeros s.cfg.s) ∧
    s.ctr = zeros s.cfg.s ∧ s.pend = false ∧ s.paddr = zeros s.cfg.a ∧ s.pviol = false

/-- R7: the PHT index width, the entries and the state bits of each variant. -/
def Obligations.DerivedSizes : Prop :=
  ∀ c : Config,
    (c.variant = .gag → c.keyWidth = c.w ∧ c.bankEntries = 0 ∧ c.stateBits = c.w + c.s + c.s * 2 ^ c.w) ∧
    (c.variant = .pag → c.keyWidth = c.w ∧ c.bankEntries = 2 ^ c.ib ∧
      c.stateBits = c.w * 2 ^ c.ib + c.s + c.s * 2 ^ c.w) ∧
    (c.variant = .pap → c.keyWidth = c.a + c.w ∧ c.bankEntries = 2 ^ c.ib ∧
      c.stateBits = c.w * 2 ^ c.ib + c.s + c.s * 2 ^ (c.a + c.w)) ∧
    (c.variant = .pas → c.keyWidth = c.k + c.w ∧ c.bankEntries = 2 ^ c.ib ∧
      c.stateBits = c.w * 2 ^ c.ib + c.s + c.s * 2 ^ (c.k + c.w)) ∧
    (c.variant = .sap → c.keyWidth = c.a + c.w ∧ c.bankEntries = 2 ^ c.k ∧
      c.stateBits = c.w * 2 ^ c.k + c.s + c.s * 2 ^ (c.a + c.w)) ∧
    c.phtEntries = 2 ^ c.keyWidth

/-! ## The primitives -/

/-- R10, R11: the unsigned value, the BitVector of a value, concatenation, low bits and slices. -/
def Obligations.BitVectorValueLaws : Prop :=
  (∀ v : Bits, val v < 2 ^ v.length ∧ bitsOf v.length (val v) = v) ∧
  (∀ n k, k < 2 ^ n → (bitsOf n k).length = n ∧ val (bitsOf n k) = k) ∧
  (∀ a b : Bits, val (a ++ b) = val a * 2 ^ b.length + val b) ∧
  (∀ (v : Bits) (i : Nat), i ≤ v.length → (low v i).length = i ∧ val (low v i) = val v % 2 ^ i) ∧
  (∀ (v : Bits) (b : Nat), b < v.length → bit v b = (val v).testBit b) ∧
  (∀ (v : Bits) (hi lo b : Nat), lo ≤ hi → hi < v.length → b < hi + 1 - lo →
    (slice v hi lo).length = hi + 1 - lo ∧ bit (slice v hi lo) b = bit v (lo + b))

/-- R83: `insert` in elements and in values; the width stays; after as many inserts as the width nothing of the old
content is left. -/
def Obligations.InsertShiftsLeft : Prop :=
  ∀ (r : Bits) (b : Bit), r ≠ [] →
    (insertBit r b).length = r.length ∧
    (∀ e, e + 1 < r.length → elem (insertBit r b) e = elem r (e + 1)) ∧
    elem (insertBit r b) (r.length - 1) = b ∧
    val (insertBit r b) = (2 * val r + b.toNat) % 2 ^ r.length ∧
    ∀ bs : Bits, bs.length = r.length → bs.foldl insertBit r = bs

/-- R82, R85, R86: `load` and the bank's accesses, their values and their errors. -/
def Obligations.BankReadAfterWrite : Prop :=
  (∀ r v : Bits, (v.length = r.length → loadReg r v = .ok v) ∧
    (v.length ≠ r.length → loadReg r v = .error .widthMismatch)) ∧
  ∀ (s : State) (i v : Bits), Cells.wf (zeros s.cfg.w) s.bank →
    (val i < s.cfg.bankEntries → v.length = s.cfg.w →
      ∃ t : State, bankWrite s i v = .ok t ∧ bankRead t i = .ok v ∧
        (∀ j, val j ≠ val i → bankRead t j = bankRead s j) ∧ t = s.withBank t.bank) ∧
    (val i < s.cfg.bankEntries → v.length ≠ s.cfg.w → bankWrite s i v = .error .widthMismatch) ∧
    (s.cfg.bankEntries ≤ val i →
      bankRead s i = .error .indexOutOfRange ∧ bankWrite s i v = .error .indexOutOfRange)

/-- R89: `put` overwrites the one cell its key selects, and a read gives back what was put; R88, R143: a key past the
cells is `IndexOutOfRange`. That `put` checks its index only, so that a value of any width is put, is the model's choice
(assumption log 9). -/
def Obligations.PhtReadAfterWrite : Prop :=
  ∀ (s : State) (k v : Bits), Cells.wf (zeros s.cfg.s) s.pht →
    (val k < s.cfg.phtEntries →
      ∃ t : State, phtWrite s k v = .ok t ∧ phtRead t k = .ok v ∧
        (∀ j, val j ≠ val k → phtRead t j = phtRead s j) ∧ t = s.withPht t.pht) ∧
    (s.cfg.phtEntries ≤ val k →
      phtRead s k = .error .indexOutOfRange ∧ phtWrite s k v = .error .indexOutOfRange)

/-- R91: `advance` as a function of the unsigned value, clamped to `[0, 2^S − 1]`. -/
def Obligations.AdvanceClamps : Prop :=
  ∀ c : Bits,
    (advance c true).length = c.length ∧ (advance c false).length = c.length ∧
    (val (advance c true) : Int) = min ((val c : Int) + 1) (2 ^ c.length - 1) ∧
    (val (advance c false) : Int) = max ((val c : Int) - 1) 0

/-- R92: the direction of a counter is its first element, equivalently its upper half, and from zero it takes
`2^(S−1)` TAKEN steps to reach it. -/
def Obligations.CounterDirection : Prop :=
  (∀ c : Bits, c ≠ [] →
    (direction c = .taken ↔ elem c 0 = true) ∧ (direction c = .taken ↔ 2 ^ (c.length - 1) ≤ val c)) ∧
  ∀ n m : Nat, 1 ≤ n →
    (direction ((fun c => advance c true)^[m] (zeros n)) = .taken ↔ 2 ^ (n - 1) ≤ m)

/-- R93: the closed form of `fold`: position `j` is the XOR of the elements whose number is `j` modulo `K`. -/
def Obligations.FoldClosedForm : Prop :=
  ∀ (v : Bits) (k : Nat), 1 ≤ k →
    (fold v k).length = k ∧
    ∀ j, j < k →
      elem (fold v k) j =
        ((List.range v.length).filter (fun i => i % k == j)).foldl (fun acc i => bitXor acc (elem v i)) false

/-- R94 (a) to (f): the corner cases and laws of `fold`. -/
def Obligations.FoldLaws : Prop :=
  (∀ v : Bits, v ≠ [] → fold v v.length = v) ∧
  (∀ (v : Bits) (k : Nat), 1 ≤ k → v.length ≤ k →
    fold v k = v ++ zeros (k - v.length) ∧ val (fold v k) = val v * 2 ^ (k - v.length)) ∧
  (∀ v : Bits, fold v 1 = [decide (v.count true % 2 = 1)]) ∧
  (∀ n k, 1 ≤ k → fold (zeros n) k = zeros k) ∧
  (∀ (u v : Bits) (k : Nat), 1 ≤ k → u.length = v.length →
    fold (List.zipWith bitXor u v) k = List.zipWith bitXor (fold u k) (fold v k)) ∧
  (∀ u v : Bits, u ≠ [] → fold (u ++ v) u.length = List.zipWith bitXor u (fold v u.length))

/-- R94 (g): for `K ≤ N` each of the `2^K` fold values has exactly `2^(N−K)` inputs. -/
def Obligations.FoldFibres : Prop :=
  ∀ (n k : Nat) (h : Bits), 1 ≤ k → k ≤ n → h.length = k →
    (Finset.univ.filter (fun v : Fin n → Bool => fold (List.ofFn v) k = h)).card = 2 ^ (n - k)

/-! ## Bank index, history, key -/

/-- R102, R103, R104: bank index, history and key of each variant, with their widths, and the cell number of R43. -/
def Obligations.KeyOfEachVariant : Prop :=
  ∀ (s : State) (addr : Bits), s.Inv → addr.length = s.cfg.a →
    (s.cfg.variant = .gag → hist s addr = .ok s.bhr ∧ key s addr = .ok s.bhr) ∧
    (s.cfg.variant = .pag → bankidx s.cfg addr = low addr s.cfg.ib ∧
      key s addr = .ok (s.bankCell (val (low addr s.cfg.ib)))) ∧
    (s.cfg.variant = .pap → bankidx s.cfg addr = low addr s.cfg.ib ∧
      key s addr = .ok (addr ++ s.bankCell (val (low addr s.cfg.ib)))) ∧
    (s.cfg.variant = .pas → bankidx s.cfg addr = low addr s.cfg.ib ∧
      key s addr = .ok (fold addr s.cfg.k ++ s.bankCell (val (low addr s.cfg.ib)))) ∧
    (s.cfg.variant = .sap → bankidx s.cfg addr = fold addr s.cfg.k ∧
      key s addr = .ok (addr ++ s.bankCell (val (fold addr s.cfg.k)))) ∧
    (s.cfg.variant ≠ .gag → (bankidx s.cfg addr).length = s.cfg.bankIndexWidth ∧
      hist s addr = .ok (s.bankCell (val (bankidx s.cfg addr)))) ∧
    ∃ h k : Bits, hist s addr = .ok h ∧ h.length = s.cfg.w ∧ key s addr = .ok k ∧ k.length = s.cfg.keyWidth ∧
      val k = val (keyTag s.cfg addr) * 2 ^ s.cfg.w + val h ∧ val k < s.cfg.phtEntries

/-- R109 (e), R127, R137: in PAp and SAp the keys of two addresses differ in any two states of an instance, each
address's key lies in its own `2^W` cells, and no command of another address changes those cells. -/
def Obligations.AddressTaggedCellsArePrivate : Prop :=
  ∀ (s : State) (a : Bits), s.Inv → s.cfg.variant = .pap ∨ s.cfg.variant = .sap → a.length = s.cfg.a →
    (∃ k : Bits, key s a = .ok k ∧ val a * 2 ^ s.cfg.w ≤ val k ∧ val k < (val a + 1) * 2 ^ s.cfg.w) ∧
    (∀ (u : State) (b k l : Bits), u.Inv → u.cfg = s.cfg → b.length = s.cfg.a → a ≠ b →
      key s a = .ok k → key u b = .ok l → val k ≠ val l) ∧
    ∀ (i : Instr) (t : State), exec i s = .next t → i.addr ≠ a →
      ∀ j, val a * 2 ^ s.cfg.w ≤ j → j < (val a + 1) * 2 ^ s.cfg.w → t.phtCell j = s.phtCell j

/-- R132: in PAs two addresses share a cell exactly when they have the same fold and the same history, and addresses of
different sets share none in any two states of an instance. -/
def Obligations.PasKeysCollideWithinASet : Prop :=
  ∀ (s u : State) (a b k l : Bits), s.Inv → u.Inv → u.cfg = s.cfg → s.cfg.variant = .pas →
    a.length = s.cfg.a → b.length = s.cfg.a → key s a = .ok k → key u b = .ok l →
    (val k = val l ↔ fold a s.cfg.k = fold b s.cfg.k ∧
      s.bankCell (val (low a s.cfg.ib)) = u.bankCell (val (low b s.cfg.ib)))

/-- R109 (d), R117, R122: in GAg and PAg two addresses with the same history get the same answer from the same cell. -/
def Obligations.SameHistorySameAnswer : Prop :=
  ∀ (s : State) (a b : Bits), s.Inv → s.cfg.variant = .gag ∨ s.cfg.variant = .pag →
    a.length = s.cfg.a → b.length = s.cfg.a → hist s a = hist s b →
    ∃ t u : State, exec (predictOf s.cfg.variant a) s = .next t ∧ exec (predictOf s.cfg.variant b) s = .next u ∧
      t.ctr = u.ctr ∧ t.rsp = u.rsp

/-! ## The ten commands -/

/-- R115. Its corner cases too: the same PREDICT again answers the same and leaves the same state, and after reset the
response is NOT_TAKEN. -/
def Obligations.GagPredictResult : Prop :=
  ∀ (s : State) (addr : Bits), s.Inv → s.cfg.variant = .gag → addr.length = s.cfg.a →
    (∀ b, readPort s (addr ++ [b, false]) = .ok (.gagPredict addr)) ∧
    exec (.gagPredict addr) s = .next (afterPredict s addr s.bhr) ∧
    exec (.gagPredict addr) (afterPredict s addr s.bhr) = .next (afterPredict s addr s.bhr) ∧
    (s = State.init s.cfg → (afterPredict s addr s.bhr).rsp = some .notTaken)

/-- R116. Its corner case too: a history of all ones shifted by TAKEN, or of all zeros by NOT_TAKEN, stays. -/
def Obligations.GagUpdateResult : Prop :=
  ∀ (s : State) (addr : Bits) (actual : BranchResult), s.Inv → s.cfg.variant = .gag → addr.length = s.cfg.a →
    readPort s (addr ++ [tbit actual, true]) = .ok (.gagUpdate addr actual) ∧
    ∃ t : State, exec (.gagUpdate addr actual) s = .next t ∧ Trained s t addr actual s.bhr ∧ ShiftedBhr s t actual ∧
      (s.bhr = List.replicate s.cfg.w (tbit actual) → t.bhr = s.bhr)

/-- R120. -/
def Obligations.PagPredictResult : Prop :=
  ∀ (s : State) (addr : Bits), s.Inv → s.cfg.variant = .pag → addr.length = s.cfg.a →
    (∀ b, readPort s (addr ++ [b, false]) = .ok (.pagPredict addr)) ∧
    exec (.pagPredict addr) s = .next (afterPredict s addr (s.bankCell (val (low addr s.cfg.ib))))

/-- R121. -/
def Obligations.PagUpdateResult : Prop :=
  ∀ (s : State) (addr : Bits) (actual : BranchResult), s.Inv → s.cfg.variant = .pag → addr.length = s.cfg.a →
    readPort s (addr ++ [tbit actual, true]) = .ok (.pagUpdate addr actual) ∧
    ∃ t : State, exec (.pagUpdate addr actual) s = .next t ∧
      Trained s t addr actual (s.bankCell (val (low addr s.cfg.ib))) ∧ ShiftedBank s t actual (low addr s.cfg.ib)

/-- R125. -/
def Obligations.PapPredictResult : Prop :=
  ∀ (s : State) (addr : Bits), s.Inv → s.cfg.variant = .pap → addr.length = s.cfg.a →
    (∀ b, readPort s (addr ++ [b, false]) = .ok (.papPredict addr)) ∧
    exec (.papPredict addr) s = .next (afterPredict s addr (addr ++ s.bankCell (val (low addr s.cfg.ib))))

/-- R126. -/
def Obligations.PapUpdateResult : Prop :=
  ∀ (s : State) (addr : Bits) (actual : BranchResult), s.Inv → s.cfg.variant = .pap → addr.length = s.cfg.a →
    readPort s (addr ++ [tbit actual, true]) = .ok (.papUpdate addr actual) ∧
    ∃ t : State, exec (.papUpdate addr actual) s = .next t ∧
      Trained s t addr actual (addr ++ s.bankCell (val (low addr s.cfg.ib))) ∧
      ShiftedBank s t actual (low addr s.cfg.ib)

/-- R130. Its corner case too: `K ≥ A` makes the fold one-to-one. -/
def Obligations.PasPredictResult : Prop :=
  ∀ (s : State) (addr : Bits), s.Inv → s.cfg.variant = .pas → addr.length = s.cfg.a →
    (∀ b, readPort s (addr ++ [b, false]) = .ok (.pasPredict addr)) ∧
    exec (.pasPredict addr) s =
      .next (afterPredict s addr (fold addr s.cfg.k ++ s.bankCell (val (low addr s.cfg.ib)))) ∧
    (s.cfg.a ≤ s.cfg.k → ∀ b : Bits, b.length = s.cfg.a → fold b s.cfg.k = fold addr s.cfg.k → b = addr)

/-- R131. -/
def Obligations.PasUpdateResult : Prop :=
  ∀ (s : State) (addr : Bits) (actual : BranchResult), s.Inv → s.cfg.variant = .pas → addr.length = s.cfg.a →
    readPort s (addr ++ [tbit actual, true]) = .ok (.pasUpdate addr actual) ∧
    ∃ t : State, exec (.pasUpdate addr actual) s = .next t ∧
      Trained s t addr actual (fold addr s.cfg.k ++ s.bankCell (val (low addr s.cfg.ib))) ∧
      ShiftedBank s t actual (low addr s.cfg.ib)

/-- R135. -/
def Obligations.SapPredictResult : Prop :=
  ∀ (s : State) (addr : Bits), s.Inv → s.cfg.variant = .sap → addr.length = s.cfg.a →
    (∀ b, readPort s (addr ++ [b, false]) = .ok (.sapPredict addr)) ∧
    exec (.sapPredict addr) s = .next (afterPredict s addr (addr ++ s.bankCell (val (fold addr s.cfg.k))))

/-- R136. -/
def Obligations.SapUpdateResult : Prop :=
  ∀ (s : State) (addr : Bits) (actual : BranchResult), s.Inv → s.cfg.variant = .sap → addr.length = s.cfg.a →
    readPort s (addr ++ [tbit actual, true]) = .ok (.sapUpdate addr actual) ∧
    ∃ t : State, exec (.sapUpdate addr actual) s = .next t ∧
      Trained s t addr actual (addr ++ s.bankCell (val (fold addr s.cfg.k))) ∧
      ShiftedBank s t actual (fold addr s.cfg.k)

/-- R100, R105, R106: each variant's own rule is the shared state machine's with that variant's `bankidx`, `hist` and
`key`. -/
def Obligations.CommandsAreTheGenericOnes : Prop :=
  ∀ (s : State) (addr : Bits) (actual : BranchResult), addr.length = s.cfg.a →
    exec (predictOf s.cfg.variant addr) s = finish (genericPredict addr s) ∧
    exec (updateOf s.cfg.variant addr actual) s = finish (genericUpdate addr actual s)

/-! ## What commands leave unchanged -/

/-- R111: after any PREDICT every PHT cell, every bank entry and `BHR` are what they were, and so are `PVIOL`, the
straps and the caller's sequence. -/
def Obligations.PredictFrame : Prop :=
  ∀ (i : Instr) (s t : State), i.actual = none → exec i s = .next t →
    t.pht = s.pht ∧ t.bank = s.bank ∧ t.bhr = s.bhr ∧ t.pviol = s.pviol ∧ t.cfg = s.cfg ∧ t.inputs = s.inputs

/-- R106, R107: an UPDATE changes no PHT cell but the one its key selects before the update, no history register but
the one its address selects, and not `CTR`, `PADDR`, the straps or the caller's sequence. -/
def Obligations.UpdateFrame : Prop :=
  ∀ (i : Instr) (s t : State) (r : BranchResult), i.actual = some r → exec i s = .next t →
    (∀ k, key s i.addr = .ok k → ∀ j, j ≠ val k → t.phtCell j = s.phtCell j) ∧
    (∀ j, s.cfg.variant = .gag ∨ j ≠ val (bankidx s.cfg i.addr) → t.bankCell j = s.bankCell j) ∧
    (s.cfg.variant ≠ .gag → t.bhr = s.bhr) ∧
    t.ctr = s.ctr ∧ t.paddr = s.paddr ∧ t.cfg = s.cfg ∧ t.inputs = s.inputs ∧ t.pend = false ∧
    (s.pviol = true → t.pviol = true)

/-- R109 (b): a second PREDICT of the same address changes nothing and answers the same. -/
def Obligations.PredictTwiceIsPredictOnce : Prop :=
  ∀ (i : Instr) (s t : State), i.actual = none → exec i s = .next t → exec i t = .next t

/-- R108: a PREDICT of an address immediately followed by its UPDATE is the read-modify-write of one counter. -/
def Obligations.TransactionEffect : Prop :=
  ∀ (s : State) (addr : Bits) (actual : BranchResult), s.Inv → addr.length = s.cfg.a →
    ∃ (h k : Bits) (t u : State), hist s addr = .ok h ∧ key s addr = .ok k ∧
      exec (predictOf s.cfg.variant addr) s = .next t ∧ exec (updateOf s.cfg.variant addr actual) t = .next u ∧
      t.rsp = some (dir (msb (s.phtCell (val k)))) ∧
      u.phtCell (val k) = advance (s.phtCell (val k)) (decide (actual = .taken)) ∧
      (∀ j, j ≠ val k → u.phtCell j = s.phtCell j) ∧
      hist u addr = .ok (insertBit h (tbit actual)) ∧
      (∀ j, j ≠ val (bankidx s.cfg addr) → u.bankCell j = s.bankCell j) ∧
      u.ctr = s.phtCell (val k) ∧ u.pend = false ∧ u.pviol = s.pviol ∧ u.cfg = s.cfg ∧ u.inputs = s.inputs

/-- R106: UPDATE does not read the PHT: with any other table in place it completes alike, writes the same value to the
same cell, and leaves the same rest. -/
def Obligations.UpdateDoesNotReadThePht : Prop :=
  ∀ (i : Instr) (s t : State) (m : Cells) (r : BranchResult), i.actual = some r → exec i s = .next t →
    ∃ (u : State) (k : Nat) (v : Bits), exec i (s.withPht m) = .next u ∧ u.withPht t.pht = t ∧
      t.pht = Cells.write (zeros s.cfg.s) k v s.pht ∧ u.pht = Cells.write (zeros s.cfg.s) k v m

/-- R20, R25 to R27: no datapath rule reads the checker registers: with any other content in them a command completes
alike, and the results differ in the checker registers at most. -/
def Obligations.CheckerIsNotReadByTheDatapath : Prop :=
  ∀ (i : Instr) (s t : State) (pend pviol : Bool) (paddr : Bits),
    paddr.length = s.paddr.length → exec i s = .next t →
    ∃ u : State, exec i (((s.withPend pend).withPaddr paddr).withPviol pviol) = .next u ∧
      ((u.withPend t.pend).withPaddr t.paddr).withPviol t.pviol = t

/-- R65: a `K` or `IB` supplied for a variant that does not take it has no effect. -/
def Obligations.UntakenParametersHaveNoEffect : Prop :=
  ∀ (i : Instr) (s t : State) (n : Nat), exec i s = .next t →
    (s.cfg.variant.takesK = false →
      exec i { s with cfg := { s.cfg with k := n } } = .next { t with cfg := { s.cfg with k := n } }) ∧
    (s.cfg.variant.takesIB = false →
      exec i { s with cfg := { s.cfg with ib := n } } = .next { t with cfg := { s.cfg with ib := n } })

/-- R28: no step changes the straps. -/
def Obligations.ConfigurationNeverChanges : Prop :=
  ∀ s t : State, step s = .next t → t.cfg = s.cfg

/-- R22, R117, R137: an UPDATE shifts its outcome into the history of every address that selects the same register, and
leaves the history of every other address. -/
def Obligations.UpdateShiftsTheSelectedHistory : Prop :=
  ∀ (s : State) (a b : Bits) (actual : BranchResult), s.Inv → a.length = s.cfg.a → b.length = s.cfg.a →
    ∃ (t : State) (h : Bits), exec (updateOf s.cfg.variant a actual) s = .next t ∧ hist s b = .ok h ∧
      (bankidx s.cfg a = bankidx s.cfg b → hist t b = .ok (insertBit h (tbit actual))) ∧
      (bankidx s.cfg a ≠ bankidx s.cfg b → hist t b = .ok h)

/-! ## The protocol -/

/-- R101: the five rows of the protocol table, the state the instance starts in, and that an UPDATE performs the
datapath of R106 whether its arc is legal or not. -/
def Obligations.ProtocolStateMachine : Prop :=
  (∀ c : Config, (State.init c).protocol = .idle) ∧
  ∀ (i : Instr) (s t : State), exec i s = .next t →
    (i.actual = none → t.protocol = .pending i.addr ∧ t.paddr = i.addr ∧ t.pviol = s.pviol) ∧
    (i.actual ≠ none → t.protocol = .idle ∧ t.paddr = s.paddr) ∧
    (i.actual ≠ none → s.protocol = .pending i.addr → t.pviol = s.pviol) ∧
    (i.actual ≠ none → s.protocol ≠ .pending i.addr → t.pviol = true) ∧
    (∀ r, i.actual = some r → s.Inv → ∃ h k : Bits, hist s i.addr = .ok h ∧ key s i.addr = .ok k ∧
      Trained s t i.addr r k ∧ hist t i.addr = .ok (insertBit h (tbit r)))

/-- R27: `PVIOL` is never cleared by any command; only reset clears it. -/
def Obligations.ViolationFlagIsSticky : Prop :=
  ∀ s t : State, s.pviol = true → step s = .next t →
    t.pviol = true ∨ s.inputs.head? = some .reset ∧ t.pviol = false

/-- R27, R170: over a whole run, `PVIOL = 0` at the end says exactly that it was 0 at the start and that the commands
were legal arcs of the protocol, one after another. -/
def Obligations.ViolationFlagRecordsTheRun : Prop :=
  ∀ (is : List Instr) (s t : State), allFit s.cfg is = true → runOn (present is) s = .next t →
    (t.pviol = false ↔ s.pviol = false ∧ legalRun s.protocol is = true)

/-! ## Invariants and runs -/

/-- R32: every legal construction, the reset state among them, has the invariants. -/
def Obligations.ConstructedInstanceHasTheInvariants : Prop :=
  State.reset.Inv ∧ State.reset.PendingCounter ∧
  ∀ (p : Straps) (s : State), construct p = .ok s → s.Inv ∧ s.PendingCounter

/-- R32: every step keeps the invariant: legal parameters, widths, sizes and the canonical form of both spaces. -/
def Obligations.StepKeepsTheInvariant : Prop :=
  ∀ s t : State, s.Inv → step s = .next t → t.Inv

/-- R24, R108: every step keeps that a pending prediction's counter is in `CTR`, the cell its address selects. That its
direction (R63) still stands on the response port is the model's choice, which holds the response in a field of State
(assumption log 4). -/
def Obligations.StepKeepsThePendingCounter : Prop :=
  ∀ s t : State, s.PendingCounter → step s = .next t → t.PendingCounter

/-- R145: every command on every address and outcome, in every state with the invariant, completes; so does every word
of `A + 2` bits on the port. -/
def Obligations.NormalOperationRaisesNothing : Prop :=
  (∀ (s : State) (i : Instr), s.Inv → i.wf s.cfg = true → ∃ t, exec i s = .next t) ∧
  ∀ (s : State) (cw : Bits), s.Inv → cw.length = s.cfg.a + 2 → ∃ t, stepOn (.command cw) s = .next t

/-- R145, R160, R170: from a construction every sequence of commands the port can carry runs to its end. -/
def Obligations.RunsFromConstructionComplete : Prop :=
  ∀ (p : Straps) (s : State) (is : List Instr), construct p = .ok s → allFit s.cfg is = true →
    ∃ t, runOn (present is) s = .next t ∧ t.Inv

/-- R162: while no cell has reached `2^(S−1)`, every PREDICT completes and answers NOT_TAKEN. -/
def Obligations.UntrainedAnswersNotTaken : Prop :=
  ∀ (s : State) (addr : Bits), s.Inv → addr.length = s.cfg.a →
    (∀ j, j < s.cfg.phtEntries → val (s.phtCell j) < 2 ^ (s.cfg.s - 1)) →
    ∃ t, exec (predictOf s.cfg.variant addr) s = .next t ∧ t.rsp = some .notTaken

/-- R21, R22: after any run from a construction, `BHR` in GAg holds the last `W` outcomes of the run, and each bank
entry the last `W` outcomes of the UPDATEs that select it, zeros where there have been fewer. -/
def Obligations.HistoryHoldsTheLastOutcomes : Prop :=
  ∀ (p : Straps) (s t : State) (is : List Instr),
    construct p = .ok s → allFit s.cfg is = true → runOn (present is) s = .next t →
    (s.cfg.variant = .gag → t.bhr = low (zeros s.cfg.w ++ outcomes (fun _ => true) is) s.cfg.w) ∧
    (s.cfg.variant ≠ .gag → ∀ j, j < s.cfg.bankEntries →
      t.bankCell j = low (zeros s.cfg.w ++ outcomes (fun a => val (bankidx s.cfg a) == j) is) s.cfg.w)

/-- R127: in PAp with one history register per address, no run of commands of other addresses changes what a PREDICT
of an address reads or answers. -/
def Obligations.PapPredictionIsIndependentOfOtherAddresses : Prop :=
  ∀ (s t : State) (is : List Instr) (b : Bits), s.Inv → s.cfg.variant = .pap → s.cfg.ib = s.cfg.a →
    b.length = s.cfg.a → allFit s.cfg is = true → (∀ i ∈ is, i.addr ≠ b) → runOn (present is) s = .next t →
    ∃ s' t' : State, exec (.papPredict b) s = .next s' ∧ exec (.papPredict b) t = .next t' ∧
      t'.ctr = s'.ctr ∧ t'.rsp = s'.rsp

/-- R48, R170, assumption log 3: presenting a sequence of inputs all at once and stepping through it is the run of
the inputs one after another. -/
def Obligations.QueuedInputsRunOneAfterAnother : Prop :=
  ∀ (xs : List Input) (s : State), s.inputs = [] →
    Host.Core.run Sys2Proof.core xs.length (s.withInputs xs) = runOn xs s

/-! ## Assembler -/

/-- R70, R71: the line of a command assembles to that command, and a `branch` line to its transaction. -/
def Obligations.AssemblerReadsEveryCommand : Prop :=
  (∀ (c : Config) (i : Instr), 1 ≤ c.a → i.wf c = true → assembleLine c (lineOf i.addr i.actual) = some [i]) ∧
  ∀ (c : Config) (addr : Bits) (actual : BranchResult), 1 ≤ c.a → addr.length = c.a →
    assembleLine c (['b', 'r', 'a', 'n', 'c', 'h', ' '] ++ addr.map digitChar ++ [',', ' '] ++ outcomeText actual) =
      some [predictOf c.variant addr, updateOf c.variant addr actual]
end

