-- ==== Sys2Proof/Laws/Bits.lean ====
section
/-! SUPPORT. Widths and values of BitVectors (spec/00_scope.md R10, R11), and the widths that `insert`, `advance` and
`fold` keep (spec/40_primitives.md R83, R91, R93). -/

namespace Sys2Proof

@[simp] theorem length_zeros (n : Nat) : (zeros n).length = n := List.length_replicate

@[simp] theorem length_bitsOf (n k : Nat) : (bitsOf n k).length = n := by
  induction n with
  | zero => rfl
  | succ n ih => simp [bitsOf, ih]

theorem length_low {v : Bits} {i : Nat} (h : i ≤ v.length) : (low v i).length = i := by
  simp only [low, List.length_drop]
  omega

/-- The value of a BitVector is below `2^n` (R10). -/
theorem val_lt_two_pow (v : Bits) : val v < 2 ^ v.length := by
  induction v with
  | nil => simp [val]
  | cons b v ih =>
    simp only [val, List.length_cons, Nat.pow_succ]
    have : b.toNat * 2 ^ v.length ≤ 1 * 2 ^ v.length := Nat.mul_le_mul_right _ (Bool.toNat_le b)
    omega

theorem val_append (a b : Bits) : val (a ++ b) = val a * 2 ^ b.length + val b := by
  induction a with
  | nil => simp [val]
  | cons x a ih =>
    simp only [List.cons_append, val, ih, List.length_append, Nat.pow_add]
    ring

/-- BitVectors of one width with one value are equal (R11, R42: the numbering of cells is one-to-one). -/
theorem eq_of_val_eq : ∀ {a b : Bits}, a.length = b.length → val a = val b → a = b
  | [], [], _, _ => rfl
  | x :: a, y :: b, hl, hv => by
    have hl' : a.length = b.length := by simpa using hl
    have ha := val_lt_two_pow a
    have hb := val_lt_two_pow b
    simp only [val] at hv
    rw [hl'] at hv ha
    have hx : x = y := by
      cases x <;> cases y <;> simp at hv ⊢ <;> omega
    subst hx
    rw [eq_of_val_eq hl' (by omega)]

namespace Machine

@[simp] theorem length_insertBit (r : Bits) (b : Bit) : (insertBit r b).length = r.length := by
  simp [insertBit]

@[simp] theorem length_advance (c : Bits) (t : Bool) : (advance c t).length = c.length := by
  simp [advance]

@[simp] theorem length_foldFrom (k i : Nat) (h v : Bits) : (foldFrom k i h v).length = h.length := by
  induction v generalizing i h with
  | nil => rfl
  | cons b v ih => simp [foldFrom, ih]

@[simp] theorem length_fold (v : Bits) (k : Nat) : (fold v k).length = k := by
  simp [fold]

end Machine

end Sys2Proof
end

