-- ==== Sys2Proof/Laws/Cells.lean ====
section
/-! SUPPORT. The laws of the cells of an index space: a read after a write (spec/40_primitives.md R86, R89), the
canonical form, and the size and widths (spec/10_state.md R32), all kept by every write. -/

namespace Sys2Proof.Machine

variable {d : Bits}

/-- A cell below every listed number holds the reset content. -/
theorem Cells.read_of_lt {m : Cells} {k : Nat} (h : ∀ x ∈ m, k < x.1) : Cells.read d m k = d := by
  induction m with
  | nil => rfl
  | cons x m ih =>
    have hx := h x (by simp)
    simp only [Cells.read]
    rw [if_neg (by omega), ih (fun y hy => h y (by simp [hy]))]

/-- A write changes no other cell, whatever the list. -/
theorem Cells.read_write_ne (m : Cells) {j k : Nat} (v : Bits) (h : j ≠ k) :
    Cells.read d (Cells.write d k v m) j = Cells.read d m j := by
  induction m with
  | nil =>
    simp only [Cells.write]
    split <;> simp [Cells.read, Ne.symm h]
  | cons x m ih =>
    obtain ⟨n, u⟩ := x
    simp only [Cells.write]
    split
    · split <;> simp [Cells.read, Ne.symm h]
    · split
      · subst n
        split <;> simp [Cells.read, Ne.symm h]
      · simp [Cells.read, ih]

/-- A read after a write of the same cell gives the value written. -/
theorem Cells.read_write_same {m : Cells} (hm : m.Pairwise (fun x y => x.1 < y.1)) (k : Nat) (v : Bits) :
    Cells.read d (Cells.write d k v m) k = v := by
  induction m with
  | nil =>
    simp only [Cells.write]
    split <;> simp_all [Cells.read]
  | cons x m ih =>
    obtain ⟨n, u⟩ := x
    obtain ⟨hx, hm'⟩ := List.pairwise_cons.mp hm
    simp only [Cells.write]
    split
    · rename_i hk
      split
      · rename_i hv
        subst hv
        refine Cells.read_of_lt fun y hy => ?_
        rcases List.mem_cons.mp hy with rfl | hy
        · exact hk
        · exact Nat.lt_trans hk (hx y hy)
      · simp [Cells.read]
    · split
      · subst n
        split
        · rename_i hv
          subst hv
          exact Cells.read_of_lt hx
        · simp [Cells.read]
      · rename_i h1 h2
        simp [Cells.read, Ne.symm h2, ih hm']

/-- What is listed after a write was listed before or is what was written. -/
theorem Cells.mem_write {m : Cells} {k : Nat} {v : Bits} {x : Nat × Bits} (hx : x ∈ Cells.write d k v m) :
    x ∈ m ∨ x = (k, v) ∧ v ≠ d := by
  induction m with
  | nil =>
    simp only [Cells.write] at hx
    split at hx <;> simp_all
  | cons y m ih =>
    obtain ⟨n, u⟩ := y
    simp only [Cells.write] at hx
    split at hx
    · split at hx
      · exact .inl hx
      · rcases List.mem_cons.mp hx with rfl | hx
        · exact .inr ⟨rfl, ‹_›⟩
        · exact .inl hx
    · split at hx
      · split at hx
        · exact .inl (List.mem_cons_of_mem _ hx)
        · rcases List.mem_cons.mp hx with rfl | hx
          · exact .inr ⟨rfl, ‹_›⟩
          · exact .inl (List.mem_cons_of_mem _ hx)
      · rcases List.mem_cons.mp hx with rfl | hx
        · exact .inl (by simp)
        · exact (ih hx).imp (List.mem_cons_of_mem _) id

/-- A write keeps the numbers rising. -/
theorem Cells.pairwise_write {m : Cells} (hm : m.Pairwise (fun x y => x.1 < y.1)) (k : Nat) (v : Bits) :
    (Cells.write d k v m).Pairwise (fun x y => x.1 < y.1) := by
  induction m with
  | nil =>
    simp only [Cells.write]
    split <;> simp
  | cons y m ih =>
    obtain ⟨n, u⟩ := y
    obtain ⟨hy, hm'⟩ := List.pairwise_cons.mp hm
    simp only [Cells.write]
    split
    · rename_i hk
      split
      · exact hm
      · refine List.pairwise_cons.mpr ⟨fun z hz => ?_, hm⟩
        rcases List.mem_cons.mp hz with rfl | hz
        · exact hk
        · exact Nat.lt_trans hk (hy z hz)
    · split
      · subst n
        split
        · exact hm'
        · exact List.pairwise_cons.mpr ⟨hy, hm'⟩
      · rename_i h1 h2
        refine List.pairwise_cons.mpr ⟨fun z hz => ?_, ih hm'⟩
        rcases Cells.mem_write hz with hz | ⟨rfl, -⟩
        · exact hy z hz
        · exact Nat.lt_of_le_of_ne (Nat.not_lt.mp h1) (Ne.symm h2)

/-- Every memory operation keeps the canonical form: a write does, and nothing else changes an index space. -/
theorem Cells.wf_write {m : Cells} (hm : Cells.wf d m) (k : Nat) (v : Bits) : Cells.wf d (Cells.write d k v m) := by
  refine ⟨Cells.pairwise_write hm.1 k v, fun x hx => ?_⟩
  rcases Cells.mem_write hx with hx | ⟨rfl, hv⟩
  · exact hm.2 x hx
  · exact hv

/-- A write inside an index space keeps its size and its cells' width. -/
theorem Cells.within_write {m : Cells} {n w k : Nat} {v : Bits} (hm : Cells.within n w m) (hk : k < n)
    (hv : v.length = w) : Cells.within n w (Cells.write d k v m) := by
  intro x hx
  rcases Cells.mem_write hx with hx | ⟨rfl, -⟩
  · exact hm x hx
  · exact ⟨hk, hv⟩

/-- A cell has its width, listed or not. -/
theorem Cells.length_read {m : Cells} {n w : Nat} (hm : Cells.within n w m) (k : Nat) :
    (Cells.read (zeros w) m k).length = w := by
  induction m with
  | nil => simp [Cells.read]
  | cons x m ih =>
    obtain ⟨j, u⟩ := x
    simp only [Cells.read]
    split
    · exact (hm (j, u) (by simp)).2
    · exact ih fun y hy => hm y (by simp [hy])

/-- Two canonical index spaces with the same content are the same list. -/
theorem Cells.ext_of_read {d : Bits} : ∀ {m n : Cells}, Cells.wf d m → Cells.wf d n →
    (∀ k, Cells.read d m k = Cells.read d n k) → m = n
  | [], [], _, _, _ => rfl
  | [], (j, u) :: n, _, hn, h => by
    have := h j
    simp [Cells.read] at this
    exact absurd this.symm (hn.2 (j, u) (by simp))
  | (j, u) :: m, [], hm, _, h => by
    have := h j
    simp [Cells.read] at this
    exact absurd this (hm.2 (j, u) (by simp))
  | (j, u) :: m, (j', u') :: n, hm, hn, h => by
    obtain ⟨hj, hm'⟩ := List.pairwise_cons.mp hm.1
    obtain ⟨hj', hn'⟩ := List.pairwise_cons.mp hn.1
    have hu := hm.2 (j, u) (by simp)
    have hu' := hn.2 (j', u') (by simp)
    have hjj : j = j' := by
      rcases Nat.lt_trichotomy j j' with hlt | heq | hgt
      · have hr := h j
        simp only [Cells.read, if_neg (Nat.ne_of_gt hlt), if_true] at hr
        rw [Cells.read_of_lt fun y hy => Nat.lt_trans hlt (hj' y hy)] at hr
        exact absurd hr hu
      · exact heq
      · have hr := h j'
        simp only [Cells.read, if_neg (Nat.ne_of_gt hgt), if_true] at hr
        rw [Cells.read_of_lt fun y hy => Nat.lt_trans hgt (hj y hy)] at hr
        exact absurd hr.symm hu'
    subst hjj
    have huu : u = u' := by simpa [Cells.read] using h j
    subst huu
    congr 1
    refine Cells.ext_of_read ⟨hm', fun x hx => hm.2 x (by simp [hx])⟩ ⟨hn', fun x hx => hn.2 x (by simp [hx])⟩
      fun k => ?_
    by_cases hk : j = k
    · subst hk
      rw [Cells.read_of_lt hj, Cells.read_of_lt hj']
    · simpa [Cells.read, hk] using h k

end Sys2Proof.Machine
end

