-- ==== Sys2Proof/Laws/State.lean ====
section
/-! SUPPORT. One lemma a field for each update of State, and the fields of a freshly constructed state. -/

namespace Sys2Proof.Machine

@[simp] theorem State.withBhr_cfg (s : State) (v : Bits) : (s.withBhr v).cfg = s.cfg := rfl
@[simp] theorem State.withBhr_bhr (s : State) (v : Bits) : (s.withBhr v).bhr = v := rfl
@[simp] theorem State.withBhr_bank (s : State) (v : Bits) : (s.withBhr v).bank = s.bank := rfl
@[simp] theorem State.withBhr_pht (s : State) (v : Bits) : (s.withBhr v).pht = s.pht := rfl
@[simp] theorem State.withBhr_ctr (s : State) (v : Bits) : (s.withBhr v).ctr = s.ctr := rfl
@[simp] theorem State.withBhr_pend (s : State) (v : Bits) : (s.withBhr v).pend = s.pend := rfl
@[simp] theorem State.withBhr_paddr (s : State) (v : Bits) : (s.withBhr v).paddr = s.paddr := rfl
@[simp] theorem State.withBhr_pviol (s : State) (v : Bits) : (s.withBhr v).pviol = s.pviol := rfl
@[simp] theorem State.withBhr_inputs (s : State) (v : Bits) : (s.withBhr v).inputs = s.inputs := rfl
@[simp] theorem State.withBhr_rsp (s : State) (v : Bits) : (s.withBhr v).rsp = s.rsp := rfl

@[simp] theorem State.withBank_cfg (s : State) (v : Cells) : (s.withBank v).cfg = s.cfg := rfl
@[simp] theorem State.withBank_bhr (s : State) (v : Cells) : (s.withBank v).bhr = s.bhr := rfl
@[simp] theorem State.withBank_bank (s : State) (v : Cells) : (s.withBank v).bank = v := rfl
@[simp] theorem State.withBank_pht (s : State) (v : Cells) : (s.withBank v).pht = s.pht := rfl
@[simp] theorem State.withBank_ctr (s : State) (v : Cells) : (s.withBank v).ctr = s.ctr := rfl
@[simp] theorem State.withBank_pend (s : State) (v : Cells) : (s.withBank v).pend = s.pend := rfl
@[simp] theorem State.withBank_paddr (s : State) (v : Cells) : (s.withBank v).paddr = s.paddr := rfl
@[simp] theorem State.withBank_pviol (s : State) (v : Cells) : (s.withBank v).pviol = s.pviol := rfl
@[simp] theorem State.withBank_inputs (s : State) (v : Cells) : (s.withBank v).inputs = s.inputs := rfl
@[simp] theorem State.withBank_rsp (s : State) (v : Cells) : (s.withBank v).rsp = s.rsp := rfl

@[simp] theorem State.withPht_cfg (s : State) (v : Cells) : (s.withPht v).cfg = s.cfg := rfl
@[simp] theorem State.withPht_bhr (s : State) (v : Cells) : (s.withPht v).bhr = s.bhr := rfl
@[simp] theorem State.withPht_bank (s : State) (v : Cells) : (s.withPht v).bank = s.bank := rfl
@[simp] theorem State.withPht_pht (s : State) (v : Cells) : (s.withPht v).pht = v := rfl
@[simp] theorem State.withPht_ctr (s : State) (v : Cells) : (s.withPht v).ctr = s.ctr := rfl
@[simp] theorem State.withPht_pend (s : State) (v : Cells) : (s.withPht v).pend = s.pend := rfl
@[simp] theorem State.withPht_paddr (s : State) (v : Cells) : (s.withPht v).paddr = s.paddr := rfl
@[simp] theorem State.withPht_pviol (s : State) (v : Cells) : (s.withPht v).pviol = s.pviol := rfl
@[simp] theorem State.withPht_inputs (s : State) (v : Cells) : (s.withPht v).inputs = s.inputs := rfl
@[simp] theorem State.withPht_rsp (s : State) (v : Cells) : (s.withPht v).rsp = s.rsp := rfl

@[simp] theorem State.withCtr_cfg (s : State) (v : Bits) : (s.withCtr v).cfg = s.cfg := rfl
@[simp] theorem State.withCtr_bhr (s : State) (v : Bits) : (s.withCtr v).bhr = s.bhr := rfl
@[simp] theorem State.withCtr_bank (s : State) (v : Bits) : (s.withCtr v).bank = s.bank := rfl
@[simp] theorem State.withCtr_pht (s : State) (v : Bits) : (s.withCtr v).pht = s.pht := rfl
@[simp] theorem State.withCtr_ctr (s : State) (v : Bits) : (s.withCtr v).ctr = v := rfl
@[simp] theorem State.withCtr_pend (s : State) (v : Bits) : (s.withCtr v).pend = s.pend := rfl
@[simp] theorem State.withCtr_paddr (s : State) (v : Bits) : (s.withCtr v).paddr = s.paddr := rfl
@[simp] theorem State.withCtr_pviol (s : State) (v : Bits) : (s.withCtr v).pviol = s.pviol := rfl
@[simp] theorem State.withCtr_inputs (s : State) (v : Bits) : (s.withCtr v).inputs = s.inputs := rfl
@[simp] theorem State.withCtr_rsp (s : State) (v : Bits) : (s.withCtr v).rsp = s.rsp := rfl

@[simp] theorem State.withPend_cfg (s : State) (v : Bool) : (s.withPend v).cfg = s.cfg := rfl
@[simp] theorem State.withPend_bhr (s : State) (v : Bool) : (s.withPend v).bhr = s.bhr := rfl
@[simp] theorem State.withPend_bank (s : State) (v : Bool) : (s.withPend v).bank = s.bank := rfl
@[simp] theorem State.withPend_pht (s : State) (v : Bool) : (s.withPend v).pht = s.pht := rfl
@[simp] theorem State.withPend_ctr (s : State) (v : Bool) : (s.withPend v).ctr = s.ctr := rfl
@[simp] theorem State.withPend_pend (s : State) (v : Bool) : (s.withPend v).pend = v := rfl
@[simp] theorem State.withPend_paddr (s : State) (v : Bool) : (s.withPend v).paddr = s.paddr := rfl
@[simp] theorem State.withPend_pviol (s : State) (v : Bool) : (s.withPend v).pviol = s.pviol := rfl
@[simp] theorem State.withPend_inputs (s : State) (v : Bool) : (s.withPend v).inputs = s.inputs := rfl
@[simp] theorem State.withPend_rsp (s : State) (v : Bool) : (s.withPend v).rsp = s.rsp := rfl

@[simp] theorem State.withPaddr_cfg (s : State) (v : Bits) : (s.withPaddr v).cfg = s.cfg := rfl
@[simp] theorem State.withPaddr_bhr (s : State) (v : Bits) : (s.withPaddr v).bhr = s.bhr := rfl
@[simp] theorem State.withPaddr_bank (s : State) (v : Bits) : (s.withPaddr v).bank = s.bank := rfl
@[simp] theorem State.withPaddr_pht (s : State) (v : Bits) : (s.withPaddr v).pht = s.pht := rfl
@[simp] theorem State.withPaddr_ctr (s : State) (v : Bits) : (s.withPaddr v).ctr = s.ctr := rfl
@[simp] theorem State.withPaddr_pend (s : State) (v : Bits) : (s.withPaddr v).pend = s.pend := rfl
@[simp] theorem State.withPaddr_paddr (s : State) (v : Bits) : (s.withPaddr v).paddr = v := rfl
@[simp] theorem State.withPaddr_pviol (s : State) (v : Bits) : (s.withPaddr v).pviol = s.pviol := rfl
@[simp] theorem State.withPaddr_inputs (s : State) (v : Bits) : (s.withPaddr v).inputs = s.inputs := rfl
@[simp] theorem State.withPaddr_rsp (s : State) (v : Bits) : (s.withPaddr v).rsp = s.rsp := rfl

@[simp] theorem State.withPviol_cfg (s : State) (v : Bool) : (s.withPviol v).cfg = s.cfg := rfl
@[simp] theorem State.withPviol_bhr (s : State) (v : Bool) : (s.withPviol v).bhr = s.bhr := rfl
@[simp] theorem State.withPviol_bank (s : State) (v : Bool) : (s.withPviol v).bank = s.bank := rfl
@[simp] theorem State.withPviol_pht (s : State) (v : Bool) : (s.withPviol v).pht = s.pht := rfl
@[simp] theorem State.withPviol_ctr (s : State) (v : Bool) : (s.withPviol v).ctr = s.ctr := rfl
@[simp] theorem State.withPviol_pend (s : State) (v : Bool) : (s.withPviol v).pend = s.pend := rfl
@[simp] theorem State.withPviol_paddr (s : State) (v : Bool) : (s.withPviol v).paddr = s.paddr := rfl
@[simp] theorem State.withPviol_pviol (s : State) (v : Bool) : (s.withPviol v).pviol = v := rfl
@[simp] theorem State.withPviol_inputs (s : State) (v : Bool) : (s.withPviol v).inputs = s.inputs := rfl
@[simp] theorem State.withPviol_rsp (s : State) (v : Bool) : (s.withPviol v).rsp = s.rsp := rfl

@[simp] theorem State.withInputs_cfg (s : State) (v : List Input) : (s.withInputs v).cfg = s.cfg := rfl
@[simp] theorem State.withInputs_bhr (s : State) (v : List Input) : (s.withInputs v).bhr = s.bhr := rfl
@[simp] theorem State.withInputs_bank (s : State) (v : List Input) : (s.withInputs v).bank = s.bank := rfl
@[simp] theorem State.withInputs_pht (s : State) (v : List Input) : (s.withInputs v).pht = s.pht := rfl
@[simp] theorem State.withInputs_ctr (s : State) (v : List Input) : (s.withInputs v).ctr = s.ctr := rfl
@[simp] theorem State.withInputs_pend (s : State) (v : List Input) : (s.withInputs v).pend = s.pend := rfl
@[simp] theorem State.withInputs_paddr (s : State) (v : List Input) : (s.withInputs v).paddr = s.paddr := rfl
@[simp] theorem State.withInputs_pviol (s : State) (v : List Input) : (s.withInputs v).pviol = s.pviol := rfl
@[simp] theorem State.withInputs_inputs (s : State) (v : List Input) : (s.withInputs v).inputs = v := rfl
@[simp] theorem State.withInputs_rsp (s : State) (v : List Input) : (s.withInputs v).rsp = s.rsp := rfl

@[simp] theorem State.withRsp_cfg (s : State) (v : Option BranchResult) : (s.withRsp v).cfg = s.cfg := rfl
@[simp] theorem State.withRsp_bhr (s : State) (v : Option BranchResult) : (s.withRsp v).bhr = s.bhr := rfl
@[simp] theorem State.withRsp_bank (s : State) (v : Option BranchResult) : (s.withRsp v).bank = s.bank := rfl
@[simp] theorem State.withRsp_pht (s : State) (v : Option BranchResult) : (s.withRsp v).pht = s.pht := rfl
@[simp] theorem State.withRsp_ctr (s : State) (v : Option BranchResult) : (s.withRsp v).ctr = s.ctr := rfl
@[simp] theorem State.withRsp_pend (s : State) (v : Option BranchResult) : (s.withRsp v).pend = s.pend := rfl
@[simp] theorem State.withRsp_paddr (s : State) (v : Option BranchResult) : (s.withRsp v).paddr = s.paddr := rfl
@[simp] theorem State.withRsp_pviol (s : State) (v : Option BranchResult) : (s.withRsp v).pviol = s.pviol := rfl
@[simp] theorem State.withRsp_inputs (s : State) (v : Option BranchResult) : (s.withRsp v).inputs = s.inputs := rfl
@[simp] theorem State.withRsp_rsp (s : State) (v : Option BranchResult) : (s.withRsp v).rsp = v := rfl

@[simp] theorem State.init_cfg (c : Config) : (State.init c).cfg = c := rfl
@[simp] theorem State.init_bhr (c : Config) : (State.init c).bhr = zeros c.bhrWidth := rfl
@[simp] theorem State.init_bank (c : Config) : (State.init c).bank = [] := rfl
@[simp] theorem State.init_pht (c : Config) : (State.init c).pht = [] := rfl
@[simp] theorem State.init_ctr (c : Config) : (State.init c).ctr = zeros c.s := rfl
@[simp] theorem State.init_pend (c : Config) : (State.init c).pend = false := rfl
@[simp] theorem State.init_paddr (c : Config) : (State.init c).paddr = zeros c.a := rfl
@[simp] theorem State.init_pviol (c : Config) : (State.init c).pviol = false := rfl
@[simp] theorem State.init_inputs (c : Config) : (State.init c).inputs = [] := rfl
@[simp] theorem State.init_rsp (c : Config) : (State.init c).rsp = none := rfl

/-- Two updates of the caller's sequence: the later one stands. -/
@[simp] theorem State.withInputs_withInputs (s : State) (xs ys : List Input) :
    (s.withInputs xs).withInputs ys = s.withInputs ys := rfl

/-- Writing back the sequence that is there changes nothing. -/
@[simp] theorem State.withInputs_self (s : State) : s.withInputs s.inputs = s := rfl

end Sys2Proof.Machine
end

