-- ==== Sys2Proof/Laws/Ops.lean ====
section
/-! SUPPORT. Everything each shared operation can do, said once: when it answers a value, and which (the primitives of
spec/40_primitives.md, the shared halves of spec/41_common_state_machine.md). -/

namespace Sys2Proof.Machine

/-! ## Sequencing of operations that can raise an error -/

theorem except_bind_eq_ok {α β : Type} {x : Except Fault α} {f : α → Except Fault β} {b : β} :
    (x >>= f) = .ok b ↔ ∃ a, x = .ok a ∧ f a = .ok b := by
  cases x <;> simp [bind, Except.bind]

theorem except_ok_bind {α β : Type} (a : α) (f : α → Except Fault β) : (Except.ok a >>= f) = f a := rfl

theorem except_pure_eq_ok {α : Type} {a b : α} : (pure a : Except Fault α) = .ok b ↔ a = b := by
  simp [pure, Except.pure]

/-! ## What each update leaves of the cells -/

@[simp] theorem bankCell_withBhr (s : State) (v : Bits) (j : Nat) : (s.withBhr v).bankCell j = s.bankCell j := rfl
@[simp] theorem bankCell_withPht (s : State) (v : Cells) (j : Nat) : (s.withPht v).bankCell j = s.bankCell j := rfl
@[simp] theorem bankCell_withCtr (s : State) (v : Bits) (j : Nat) : (s.withCtr v).bankCell j = s.bankCell j := rfl
@[simp] theorem bankCell_withPend (s : State) (v : Bool) (j : Nat) : (s.withPend v).bankCell j = s.bankCell j := rfl
@[simp] theorem bankCell_withPaddr (s : State) (v : Bits) (j : Nat) : (s.withPaddr v).bankCell j = s.bankCell j := rfl
@[simp] theorem bankCell_withPviol (s : State) (v : Bool) (j : Nat) : (s.withPviol v).bankCell j = s.bankCell j := rfl
@[simp] theorem bankCell_withInputs (s : State) (v : List Input) (j : Nat) : (s.withInputs v).bankCell j = s.bankCell j := rfl
@[simp] theorem bankCell_withRsp (s : State) (v : Option BranchResult) (j : Nat) : (s.withRsp v).bankCell j = s.bankCell j := rfl
@[simp] theorem phtCell_withBhr (s : State) (v : Bits) (j : Nat) : (s.withBhr v).phtCell j = s.phtCell j := rfl
@[simp] theorem phtCell_withBank (s : State) (v : Cells) (j : Nat) : (s.withBank v).phtCell j = s.phtCell j := rfl
@[simp] theorem phtCell_withCtr (s : State) (v : Bits) (j : Nat) : (s.withCtr v).phtCell j = s.phtCell j := rfl
@[simp] theorem phtCell_withPend (s : State) (v : Bool) (j : Nat) : (s.withPend v).phtCell j = s.phtCell j := rfl
@[simp] theorem phtCell_withPaddr (s : State) (v : Bits) (j : Nat) : (s.withPaddr v).phtCell j = s.phtCell j := rfl
@[simp] theorem phtCell_withPviol (s : State) (v : Bool) (j : Nat) : (s.withPviol v).phtCell j = s.phtCell j := rfl
@[simp] theorem phtCell_withInputs (s : State) (v : List Input) (j : Nat) : (s.withInputs v).phtCell j = s.phtCell j := rfl
@[simp] theorem phtCell_withRsp (s : State) (v : Option BranchResult) (j : Nat) : (s.withRsp v).phtCell j = s.phtCell j := rfl

/-! ## The primitives -/

theorem loadReg_eq_ok {r v u : Bits} : loadReg r v = .ok u ↔ v.length = r.length ∧ u = v := by
  simp only [loadReg]
  split <;> simp_all [eq_comm]

theorem bankRead_eq_ok {s : State} {i v : Bits} :
    bankRead s i = .ok v ↔ val i < s.cfg.bankEntries ∧ v = s.bankCell (val i) := by
  simp only [bankRead]
  split <;> simp_all [eq_comm]

theorem bankWrite_eq_ok {s t : State} {i v : Bits} :
    bankWrite s i v = .ok t ↔ val i < s.cfg.bankEntries ∧ v.length = s.cfg.w ∧
      t = s.withBank (Cells.write (zeros s.cfg.w) (val i) v s.bank) := by
  simp only [bankWrite]
  split
  · split <;> simp_all [eq_comm]
  · simp_all

theorem phtRead_eq_ok {s : State} {k v : Bits} :
    phtRead s k = .ok v ↔ val k < s.cfg.phtEntries ∧ v = s.phtCell (val k) := by
  simp only [phtRead]
  split <;> simp_all [eq_comm]

theorem phtWrite_eq_ok {s t : State} {k v : Bits} :
    phtWrite s k v = .ok t ↔ val k < s.cfg.phtEntries ∧
      t = s.withPht (Cells.write (zeros s.cfg.s) (val k) v s.pht) := by
  simp only [phtWrite]
  split <;> simp_all [eq_comm]

theorem compareBits_eq_ok {x y : Bits} {b : Bool} :
    compareBits x y = .ok b ↔ x.length = y.length ∧ b = decide (x = y) := by
  simp only [compareBits]
  split <;> simp_all [eq_comm]

/-- What `PVIOL` becomes in an UPDATE of `addr` (R110). -/
def violates (s : State) (addr : Bits) : Bool := s.pviol || !(s.pend && decide (s.paddr = addr))

theorem noteUpdate_eq_ok {addr : Bits} {s t : State} :
    noteUpdate addr s = .ok t ↔ s.paddr.length = addr.length ∧
      t = (s.withPviol (violates s addr)).withPend false := by
  have key : (if (s.pend && decide (s.paddr = addr)) = true then s else s.withPviol true).withPend false =
      (s.withPviol (violates s addr)).withPend false := by
    cases hb : s.pend && decide (s.paddr = addr) <;> simp [violates, hb, State.withPviol, State.withPend]
  by_cases hl : s.paddr.length = addr.length
  · rw [noteUpdate, compareBits, if_pos hl]
    simp only [key, Except.ok.injEq, hl, true_and]
    exact eq_comm
  · simp [noteUpdate, compareBits, hl]

/-! ## The shared halves -/

theorem predictAt_eq_ok {k addr : Bits} {s t : State} :
    predictAt k addr s = .ok t ↔ val k < s.cfg.phtEntries ∧ (s.phtCell (val k)).length = s.ctr.length ∧
      t = afterPredict s addr k := by
  simp only [predictAt, except_bind_eq_ok, phtRead_eq_ok, loadReg_eq_ok, except_pure_eq_ok]
  constructor
  · rintro ⟨b, ⟨hk, rfl⟩, c, ⟨hl, rfl⟩, rfl⟩
    exact ⟨hk, hl, rfl⟩
  · rintro ⟨hk, hl, rfl⟩
    exact ⟨_, ⟨hk, rfl⟩, _, ⟨hl, rfl⟩, rfl⟩

theorem trainAt_eq_ok {k : Bits} {r : BranchResult} {s t : State} :
    trainAt k r s = .ok t ↔ val k < s.cfg.phtEntries ∧
      t = s.withPht (Cells.write (zeros s.cfg.s) (val k) (advance s.ctr (decide (r = .taken))) s.pht) := by
  simp only [trainAt, phtWrite_eq_ok]

theorem shiftBank_eq_ok {i h : Bits} {r : BranchResult} {s t : State} :
    shiftBank i h r s = .ok t ↔ val i < s.cfg.bankEntries ∧ h.length = s.cfg.w ∧
      t = s.withBank (Cells.write (zeros s.cfg.w) (val i) (insertBit h (tbit r)) s.bank) := by
  simp only [shiftBank, bankWrite_eq_ok, length_insertBit]

theorem finish_eq_next {x : Except Fault State} {t : State} : finish x = .next t ↔ x = .ok t := by
  cases x <;> simp [finish]

theorem atPort_eq_next {v : Variant} {addr : Bits} {s t : State} {x : Except Fault State} :
    atPort v addr s x = .next t ↔ s.cfg.variant = v ∧ addr.length = s.cfg.a ∧ x = .ok t := by
  simp only [atPort]
  split
  · split <;> simp_all [finish_eq_next]
  · simp_all

/-- `key` is the tag in front of `hist` (R104). -/
theorem key_eq_ok {s : State} {addr k : Bits} :
    key s addr = .ok k ↔ ∃ h, hist s addr = .ok h ∧ k = keyTag s.cfg addr ++ h := by
  simp only [key]
  cases hist s addr <;> simp [eq_comm]

end Sys2Proof.Machine
end

