-- ==== Sys2Proof/Laws/Exec.lean ====
section
/-! SUPPORT. What a completed command can be, said once for all ten: a PREDICT is `afterPredict` of its key, an UPDATE is
`afterUpdate` of its history and key; and what a step can be. Later proofs cite these and unfold no meaning. -/

namespace Sys2Proof.Machine

/-- The state after a completed UPDATE that used the history `h` and the key `k`. -/
def afterUpdate (s : State) (addr : Bits) (r : BranchResult) (h k : Bits) : State :=
  { s with
    bhr := if s.cfg.variant = .gag then insertBit h (tbit r) else s.bhr
    bank := if s.cfg.variant = .gag then s.bank
      else Cells.write (zeros s.cfg.w) (val (bankidx s.cfg addr)) (insertBit h (tbit r)) s.bank
    pht := Cells.write (zeros s.cfg.s) (val k) (advance s.ctr (decide (r = .taken))) s.pht
    pend := false
    pviol := violates s addr
    rsp := none }

/-- A command completes a PREDICT exactly when it is the instance's, its address fits, its key has a cell and the cell
fits `CTR`; and the next state is `afterPredict`. -/
theorem exec_predict_eq_next {i : Instr} {s t : State} (hi : i.actual = none) :
    exec i s = .next t ↔ i.variant = s.cfg.variant ∧ i.addr.length = s.cfg.a ∧
      ∃ k, key s i.addr = .ok k ∧ val k < s.cfg.phtEntries ∧ (s.phtCell (val k)).length = s.ctr.length ∧
        t = afterPredict s i.addr k := by
  cases i
  case gagPredict addr =>
    simp only [exec, execGagPredict, atPort_eq_next, predictAt_eq_ok, Instr.variant, Instr.addr]
    constructor
    · rintro ⟨hv, hl, h⟩
      exact ⟨hv.symm, hl, s.bhr, by simp [key_eq_ok, hist, keyTag, hv], h⟩
    · rintro ⟨hv, hl, k, hk, h⟩
      obtain rfl : k = s.bhr := by simpa [key_eq_ok, hist, keyTag, ← hv] using hk
      exact ⟨hv.symm, hl, h⟩
  case gagUpdate => simp [Instr.actual] at hi
  case pagUpdate => simp [Instr.actual] at hi
  case papUpdate => simp [Instr.actual] at hi
  case pasUpdate => simp [Instr.actual] at hi
  case sapUpdate => simp [Instr.actual] at hi
  all_goals
    simp only [exec, execPagPredict, execPapPredict, execPasPredict, execSapPredict, atPort_eq_next, except_bind_eq_ok,
      predictAt_eq_ok, bankRead_eq_ok, Instr.variant, Instr.addr]
    constructor
    · rintro ⟨hv, hl, h, ⟨hb, rfl⟩, hr⟩
      exact ⟨hv.symm, hl, _, by simp [key_eq_ok, hist, keyTag, bankidx, hv, bankRead, hb], hr⟩
    · rintro ⟨hv, hl, k, hk, hr⟩
      simp only [key_eq_ok, hist, keyTag, bankidx, ← hv, bankRead_eq_ok] at hk
      obtain ⟨h, ⟨hb, rfl⟩, rfl⟩ := hk
      exact ⟨hv.symm, hl, _, ⟨hb, rfl⟩, hr⟩

/-- A command completes an UPDATE exactly when it is the instance's, its address fits, its history and key exist; and the
next state is `afterUpdate`. -/
theorem exec_update_eq_next {i : Instr} {s t : State} {r : BranchResult} (hi : i.actual = some r) :
    exec i s = .next t ↔ i.variant = s.cfg.variant ∧ i.addr.length = s.cfg.a ∧ s.paddr.length = s.cfg.a ∧
      ∃ h k, hist s i.addr = .ok h ∧ key s i.addr = .ok k ∧ val k < s.cfg.phtEntries ∧
        (s.cfg.variant ≠ .gag → h.length = s.cfg.w) ∧ t = afterUpdate s i.addr r h k := by
  cases i
  case gagPredict => simp [Instr.actual] at hi
  case pagPredict => simp [Instr.actual] at hi
  case papPredict => simp [Instr.actual] at hi
  case pasPredict => simp [Instr.actual] at hi
  case sapPredict => simp [Instr.actual] at hi
  case gagUpdate addr actual =>
    obtain rfl : actual = r := by simpa [Instr.actual] using hi
    simp only [exec, execGagUpdate, atPort_eq_next, except_bind_eq_ok, noteUpdate_eq_ok, trainAt_eq_ok,
      except_pure_eq_ok, Instr.variant, Instr.addr]
    constructor
    · rintro ⟨hv, hl, s1, ⟨hp, rfl⟩, s2, ⟨hk, rfl⟩, rfl⟩
      refine ⟨hv.symm, hl, hp.trans hl, s.bhr, s.bhr, by simp [hist, hv], by simp [key_eq_ok, hist, keyTag, hv], hk,
        fun h => absurd hv h, ?_⟩
      simp [afterUpdate, hv, noAnswer, shiftBhr, State.withRsp, State.withBhr, State.withPht, State.withPend,
        State.withPviol]
    · rintro ⟨hv, hl, hp, h, k, hh, hk, hlt, -, rfl⟩
      obtain rfl : s.bhr = h := by simpa [hist, ← hv] using hh
      obtain rfl : k = s.bhr := by simpa [key_eq_ok, hist, keyTag, ← hv] using hk
      refine ⟨hv.symm, hl, _, ⟨hp.trans hl.symm, rfl⟩, _, ⟨hlt, rfl⟩, ?_⟩
      simp [afterUpdate, ← hv, noAnswer, shiftBhr, State.withRsp, State.withBhr, State.withPht, State.withPend,
        State.withPviol]
  all_goals
    rename_i addr actual
    obtain rfl : actual = r := by simpa [Instr.actual] using hi
    simp only [exec, execPagUpdate, execPapUpdate, execPasUpdate, execSapUpdate, atPort_eq_next, except_bind_eq_ok,
      noteUpdate_eq_ok, bankRead_eq_ok, trainAt_eq_ok, shiftBank_eq_ok, except_pure_eq_ok, Instr.variant, Instr.addr]
    constructor
    · rintro ⟨hv, hl, s1, ⟨hp, rfl⟩, h, ⟨hb, rfl⟩, s2, ⟨hk, rfl⟩, s3, ⟨-, hw, rfl⟩, rfl⟩
      refine ⟨hv.symm, hl, hp.trans hl, _, _, ?_, ?_, hk, fun _ => hw, ?_⟩
      · simp only [hist, hv, bankidx, bankRead_eq_ok]
        exact ⟨hb, rfl⟩
      · simp only [key_eq_ok, hist, keyTag, hv, bankidx, bankRead_eq_ok]
        exact ⟨_, ⟨hb, rfl⟩, rfl⟩
      · simp [afterUpdate, hv, bankidx, noAnswer, State.withRsp, State.withBank, State.withPht, State.withPend,
          State.withPviol]
    · rintro ⟨hv, hl, hp, h, k, hh, hk, hlt, hw, rfl⟩
      simp only [hist, ← hv, bankidx, bankRead_eq_ok] at hh
      obtain ⟨hb, rfl⟩ := hh
      simp only [key_eq_ok, hist, keyTag, ← hv, bankidx, bankRead_eq_ok] at hk
      obtain ⟨_, ⟨-, rfl⟩, rfl⟩ := hk
      refine ⟨hv.symm, hl, _, ⟨hp.trans hl.symm, rfl⟩, _, ⟨hb, rfl⟩, _, ⟨hlt, rfl⟩, _,
        ⟨hb, hw (by simp [← hv]), rfl⟩, ?_⟩
      simp [afterUpdate, ← hv, bankidx, noAnswer, State.withRsp, State.withBank, State.withPht, State.withPend,
        State.withPviol]
      exact ⟨rfl, rfl⟩

/-- Everything a step that answers a next state can have been: nothing was presented, a reset, or a command. -/
theorem step_eq_next {s t : State} (h : step s = .next t) :
    (s.inputs = [] ∧ t = s) ∨
    (∃ rest, s.inputs = .reset :: rest ∧ t = (State.init s.cfg).withInputs rest) ∨
    (∃ cw rest i, s.inputs = .command cw :: rest ∧ readPort s cw = .ok i ∧ exec i (s.withInputs rest) = .next t) := by
  simp only [step] at h
  split at h
  · exact .inl ⟨‹_›, by simpa using h.symm⟩
  · exact .inr (.inl ⟨_, ‹_›, by simpa [resetInstance] using h.symm⟩)
  · split at h
    · exact .inr (.inr ⟨_, _, _, ‹_›, ‹_›, h⟩)
    · simp at h

end Sys2Proof.Machine
end

