-- ==== Sys2Proof/Laws/PerInstr.lean ====
section
/-! SUPPORT. Statements about every command as syntax, one lemma a constructor: the word of every command is its address
and two bits (spec/30_encoding.md R61, R68). -/

namespace Sys2Proof.Laws.EncodedWord

/-- The canonical word of a command is two bits longer than its address (R61, R68), and the address stands in front. -/
def Statement (i : Instr) : Prop := (encode i).length = i.addr.length + 2 ∧ (encode i).take i.addr.length = i.addr

theorem gagPredict (addr : Bits) : Statement (.gagPredict addr) := by simp [Statement, encode, predictTail, Instr.addr]
theorem gagUpdate (addr : Bits) (actual : BranchResult) : Statement (.gagUpdate addr actual) := by
  simp [Statement, encode, updateTail, Instr.addr]
theorem pagPredict (addr : Bits) : Statement (.pagPredict addr) := by simp [Statement, encode, predictTail, Instr.addr]
theorem pagUpdate (addr : Bits) (actual : BranchResult) : Statement (.pagUpdate addr actual) := by
  simp [Statement, encode, updateTail, Instr.addr]
theorem papPredict (addr : Bits) : Statement (.papPredict addr) := by simp [Statement, encode, predictTail, Instr.addr]
theorem papUpdate (addr : Bits) (actual : BranchResult) : Statement (.papUpdate addr actual) := by
  simp [Statement, encode, updateTail, Instr.addr]
theorem pasPredict (addr : Bits) : Statement (.pasPredict addr) := by simp [Statement, encode, predictTail, Instr.addr]
theorem pasUpdate (addr : Bits) (actual : BranchResult) : Statement (.pasUpdate addr actual) := by
  simp [Statement, encode, updateTail, Instr.addr]
theorem sapPredict (addr : Bits) : Statement (.sapPredict addr) := by simp [Statement, encode, predictTail, Instr.addr]
theorem sapUpdate (addr : Bits) (actual : BranchResult) : Statement (.sapUpdate addr actual) := by
  simp [Statement, encode, updateTail, Instr.addr]

end Sys2Proof.Laws.EncodedWord
end

