-- ==== Sys2Proof/Tests/Slice0.lean ====
section
/-! SUPPORT. Tests of the model against the spec's own vectors (spec/95_test_vectors.md, named by their numbers there),
and for each statement with hypotheses a concrete state and operands that meet them. -/

namespace Sys2Proof.Tests

open Sys2Proof Sys2Proof.Machine

/-- A BitVector from its digits, most significant first. -/
def bv (v : List Nat) : Bits := v.map (fun d => d == 1)

/-- An instance with the given contents, everything else at reset. -/
def st (c : Config) (bhr : Bits) (bank pht : Cells) : State :=
  { State.init c with bhr := bhr, bank := bank, pht := pht }

def cGag : Config := ⟨.gag, 2, 2, 2, 0, 0⟩
def cPag : Config := ⟨.pag, 2, 2, 2, 0, 2⟩
def cPap : Config := ⟨.pap, 2, 2, 2, 0, 2⟩
def cPas : Config := ⟨.pas, 2, 2, 4, 2, 4⟩
def cSap : Config := ⟨.sap, 2, 2, 4, 2, 0⟩

/-- V6 rows 4, 6, 9, 12, 14: the states the commands start from. -/
def sGag : State := st cGag (bv [1, 1]) [] [(3, bv [1, 0])]
def sPag : State := st cPag [] [(1, bv [1, 1])] [(3, bv [1, 0])]
def sPap : State := st cPap [] [(1, bv [1, 1])] [(7, bv [1, 0])]
def sPas : State := st cPas [] [(9, bv [0, 1])] [(13, bv [1, 1])]
def sSap : State := st cSap [] [(3, bv [0, 1])] [(37, bv [1, 0])]

/-- The state after V6's PREDICT of row 4, 6, 9, 12 or 14. -/
def predicted (s : State) (addr ctr : Bits) : State :=
  { s with ctr := ctr, pend := true, paddr := addr, rsp := some .taken }

/-! ## WellFormed: an ill-formed command for each check -/

theorem test_wf_accepts : (Instr.gagPredict (bv [0, 1])).wf cGag = true := by decide
theorem test_wf_refuses_address_width : (Instr.gagPredict (bv [0, 1, 0])).wf cGag = false := by decide
theorem test_wf_refuses_other_variant : (Instr.pagPredict (bv [0, 1])).wf cGag = false := by decide

/-! ## Decode: words written out from R61, one for each constructor (P1 to P4, P6) -/

theorem test_decode_gag :
    decode ⟨.gag, 2, 2, 4, 0, 0⟩ (bv [1, 0, 1, 1, 0, 0]) = .ok (.gagPredict (bv [1, 0, 1, 1])) ∧
    decode ⟨.gag, 2, 2, 4, 0, 0⟩ (bv [1, 0, 1, 1, 1, 1]) = .ok (.gagUpdate (bv [1, 0, 1, 1]) .taken) ∧
    decode ⟨.gag, 2, 2, 4, 0, 0⟩ (bv [1, 0, 1, 1, 0, 1]) = .ok (.gagUpdate (bv [1, 0, 1, 1]) .notTaken) :=
  ⟨rfl, rfl, rfl⟩
theorem test_decode_pag :
    decode cPag (bv [1, 0, 0, 0]) = .ok (.pagPredict (bv [1, 0])) ∧
    decode cPag (bv [0, 1, 1, 1]) = .ok (.pagUpdate (bv [0, 1]) .taken) := ⟨rfl, rfl⟩
theorem test_decode_pap :
    decode cPap (bv [1, 1, 0, 0]) = .ok (.papPredict (bv [1, 1])) ∧
    decode cPap (bv [1, 0, 1, 1]) = .ok (.papUpdate (bv [1, 0]) .taken) := ⟨rfl, rfl⟩
theorem test_decode_pas :
    decode cPas (bv [0, 1, 0, 1, 0, 0]) = .ok (.pasPredict (bv [0, 1, 0, 1])) ∧
    decode cPas (bv [0, 0, 1, 1, 1, 1]) = .ok (.pasUpdate (bv [0, 0, 1, 1]) .taken) := ⟨rfl, rfl⟩
theorem test_decode_sap :
    decode cSap (bv [1, 0, 0, 1, 0, 0]) = .ok (.sapPredict (bv [1, 0, 0, 1])) ∧
    decode cSap (bv [0, 0, 1, 1, 0, 1]) = .ok (.sapUpdate (bv [0, 0, 1, 1]) .notTaken) := ⟨rfl, rfl⟩
/-- V6 row 17: `CW[1]` of a PREDICT is ignored. -/
theorem test_decode_predict_ignores_actual :
    decode cGag (bv [0, 0, 1, 0]) = .ok (.gagPredict (bv [0, 0])) := rfl
theorem test_decode_wrong_length : decode cGag (bv [0, 0, 0]) = .error .wrongLength := rfl
/-- The words of P1 and P4 as numbers. -/
theorem test_encode :
    val (encode (.gagUpdate (bv [1, 0, 1, 1]) .taken)) = 0x2F ∧ val (encode (.sapPredict (bv [1, 0, 0, 1]))) = 0x24 ∧
    val (encode (.sapUpdate (bv [0, 0, 1, 1]) .notTaken)) = 0x0D := by decide
theorem test_table_word :
    decodeTableWord 8 0 = some (.gagPredict (bv [0, 0, 0, 0])) ∧
    decodeTableWord 8 1 = some (.gagUpdate (bv [0, 0, 0, 0]) .notTaken) ∧ decodeTableWord 8 0x80 = none := by decide
theorem test_fetch_word :
    nextState (step (State.reset.withFetchWord 8 0)) =
      some { State.reset with pend := true, rsp := some .notTaken } := by decide

/-! ## The primitives -/

/-- V1. -/
theorem test_insert :
    insertBit (bv [0, 0]) true = bv [0, 1] ∧ insertBit (bv [1, 0]) false = bv [0, 0] ∧
    insertBit (bv [1]) false = bv [0] ∧ insertBit (bv [1, 0, 1, 1]) false = bv [0, 1, 1, 0] := by decide
/-- V2. -/
theorem test_advance :
    advance (bv [1, 1]) true = bv [1, 1] ∧ advance (bv [0, 0]) false = bv [0, 0] ∧ advance (bv [0]) true = bv [1] ∧
    advance (bv [0, 1, 1]) true = bv [1, 0, 0] ∧ advance (bv [1, 0, 0]) false = bv [0, 1, 1] := by decide
theorem test_direction :
    direction (bv [0, 1, 1]) = .notTaken ∧ direction (bv [1, 0, 0]) = .taken ∧ direction (bv [1]) = .taken := by decide
/-- V3. -/
theorem test_fold :
    fold (bv [1, 0, 1, 1]) 2 = bv [0, 1] ∧ fold (bv [1, 0, 0, 1]) 2 = bv [1, 1] ∧
    fold (bv [1, 0, 1, 1, 0, 1, 1, 0]) 3 = bv [1, 0, 0] ∧ fold (bv [1, 1, 0, 1, 0, 0, 1, 1]) 4 = bv [1, 1, 1, 0] ∧
    fold (bv [1, 0, 1]) 5 = bv [1, 0, 1, 0, 0] ∧ fold (bv [1, 1, 1, 0]) 1 = bv [1] := by decide
/-- V4. -/
theorem test_bankidx :
    bankidx ⟨.pag, 2, 2, 4, 0, 2⟩ (bv [1, 0, 0, 1]) = bv [0, 1] ∧ bankidx cSap (bv [0, 0, 1, 1]) = bv [1, 1] ∧
    bankidx ⟨.sap, 1, 1, 2, 3, 0⟩ (bv [1, 0]) = bv [1, 0, 0] := by decide
/-- V4's bank: a write of one entry, and an entry written back to zero is no longer listed. -/
theorem test_bank_write :
    Cells.write (bv [0, 0]) 2 (bv [1, 1]) [(1, bv [1, 1]), (2, bv [0, 1])] = [(1, bv [1, 1]), (2, bv [1, 1])] ∧
    Cells.write (bv [0, 0]) 1 (bv [0, 0]) [(1, bv [1, 1]), (2, bv [0, 1])] = [(2, bv [0, 1])] := by decide
/-- V5: the cell numbers of the keys. -/
theorem test_key :
    (key (st ⟨.pap, 2, 2, 4, 2, 4⟩ [] [(9, bv [1, 0])] []) (bv [1, 0, 0, 1])).map val = .ok 38 ∧
    (key (st ⟨.pas, 2, 2, 4, 2, 4⟩ [] [(9, bv [1, 0])] []) (bv [1, 0, 0, 1])).map val = .ok 14 ∧
    (key (st ⟨.sap, 2, 2, 4, 2, 4⟩ [] [(3, bv [1, 0])] []) (bv [1, 0, 0, 1])).map val = .ok 38 := ⟨rfl, rfl, rfl⟩

/-! ## The ten commands: V6, by its row numbers -/

theorem test_gag_predict_row1 :
    nextState (exec (.gagPredict (bv [0, 0])) (State.init cGag)) =
      some { State.init cGag with pend := true, rsp := some .notTaken } := by decide
theorem test_gag_update_row2 :
    nextState (exec (.gagUpdate (bv [0, 0]) .taken) { State.init cGag with pend := true }) =
      some (st cGag (bv [0, 1]) [] [(0, bv [0, 1])]) := by decide
theorem test_gag_predict_row4 :
    nextState (exec (.gagPredict (bv [0, 1])) sGag) = some (predicted sGag (bv [0, 1]) (bv [1, 0])) := by decide
theorem test_gag_update_row5 :
    (nextState (exec (.gagUpdate (bv [0, 1]) .notTaken) (predicted sGag (bv [0, 1]) (bv [1, 0])))).map
      (fun t => (t.pht, t.bhr, t.pend, t.pviol, t.ctr)) = some ([(3, bv [0, 1])], bv [1, 0], false, false, bv [1, 0]) := by
  decide
theorem test_pag_predict_row6 :
    nextState (exec (.pagPredict (bv [0, 1])) sPag) = some (predicted sPag (bv [0, 1]) (bv [1, 0])) := by decide
theorem test_pag_update_row7 :
    (nextState (exec (.pagUpdate (bv [0, 1]) .taken) (predicted sPag (bv [0, 1]) (bv [1, 0])))).map
      (fun t => (t.pht, t.bank, t.pend, t.pviol)) = some ([(3, bv [1, 1])], [(1, bv [1, 1])], false, false) := by decide
theorem test_pag_predict_row8 :
    (nextState (exec (.pagPredict (bv [1, 0])) (st cPag [] [(1, bv [1, 1])] [(3, bv [1, 1])]))).map
      (fun t => (t.ctr, t.paddr, t.rsp)) = some (bv [0, 0], bv [1, 0], some .notTaken) := by decide
theorem test_pap_predict_row9 :
    nextState (exec (.papPredict (bv [0, 1])) sPap) = some (predicted sPap (bv [0, 1]) (bv [1, 0])) := by decide
theorem test_pap_predict_row10 :
    (nextState (exec (.papPredict (bv [1, 0])) sPap)).map (fun t => (t.ctr, t.rsp)) =
      some (bv [0, 0], some .notTaken) := by decide
theorem test_pap_update_row11 :
    (nextState (exec (.papUpdate (bv [0, 1]) .notTaken) (predicted sPap (bv [0, 1]) (bv [1, 0])))).map
      (fun t => (t.pht, t.bank, t.pend, t.pviol)) = some ([(7, bv [0, 1])], [(1, bv [1, 0])], false, false) := by decide
theorem test_pas_predict_row12 :
    nextState (exec (.pasPredict (bv [1, 0, 0, 1])) sPas) = some (predicted sPas (bv [1, 0, 0, 1]) (bv [1, 1])) := by
  decide
theorem test_pas_update_row13 :
    (nextState (exec (.pasUpdate (bv [1, 0, 0, 1]) .taken) (predicted sPas (bv [1, 0, 0, 1]) (bv [1, 1])))).map
      (fun t => (t.pht, t.bank)) = some ([(13, bv [1, 1])], [(9, bv [1, 1])]) := by decide
theorem test_sap_predict_row14 :
    nextState (exec (.sapPredict (bv [1, 0, 0, 1])) sSap) = some (predicted sSap (bv [1, 0, 0, 1]) (bv [1, 0])) := by
  decide
theorem test_sap_predict_row15 :
    (nextState (exec (.sapPredict (bv [0, 0, 1, 1])) sSap)).map (fun t => (t.ctr, t.rsp)) =
      some (bv [0, 0], some .notTaken) := by decide
theorem test_sap_update_row16 :
    (nextState (exec (.sapUpdate (bv [1, 0, 0, 1]) .notTaken) (predicted sSap (bv [1, 0, 0, 1]) (bv [1, 0])))).map
      (fun t => (t.pht, t.bank)) = some ([(37, bv [0, 1])], [(3, bv [1, 0])]) := by decide
/-- P5's command 11 and P6's command 1: an UPDATE of another address, and an UPDATE with nothing pending. -/
theorem test_out_of_protocol_update :
    (nextState (exec (.pagUpdate (bv [0, 1]) .taken)
      (predicted (st cPag [] [(1, bv [1, 1])] [(0, bv [0, 1]), (1, bv [0, 1]), (3, bv [1, 0])]) (bv [1, 0])
        (bv [0, 1])))).map (fun t => (t.pht, t.pviol, t.paddr)) =
      some ([(0, bv [0, 1]), (1, bv [0, 1]), (3, bv [1, 0])], true, bv [1, 0]) ∧
    (nextState (exec (.papUpdate (bv [1, 1]) .taken) (State.init ⟨.pap, 1, 2, 2, 0, 2⟩))).map
      (fun t => (t.pht, t.bank, t.pviol)) = some ([(6, bv [0, 1])], [(3, bv [1])], true) := by decide
/-- V8's last row: the reset input. -/
theorem test_reset_input :
    nextState (step { predicted sPag (bv [0, 1]) (bv [1, 0]) with pviol := true, inputs := [.reset] }) =
      some (State.init cPag) := by decide
/-- The errors of the model's own totality (assumption log 5). -/
theorem test_wrong_width :
    exec (.gagPredict (bv [1])) sGag = .fault .widthMismatch ∧ exec (.pagPredict (bv [1, 1])) sGag = .refused .otherVariant :=
  ⟨rfl, rfl⟩

/-! ## Construction (V7) and the assembler (R70) -/

/-- V7: rows that make an instance and rows that make none. -/
theorem test_construct :
    construct ⟨4, 1, 1, 2, 3, 0⟩ = .ok (State.init ⟨.sap, 1, 1, 2, 3, 0⟩) ∧
    construct ⟨0, 2, 2, 4, 0, 0⟩ = .ok (State.init ⟨.gag, 2, 2, 4, 0, 0⟩) ∧
    construct ⟨1, 2, 2, 3, 0, 4⟩ = .error .configurationError ∧ construct ⟨3, 2, 2, 4, 0, 4⟩ = .error .configurationError ∧
    construct ⟨2, -1, 2, 4, 0, 4⟩ = .error .configurationError ∧ construct ⟨5, 2, 2, 4, 0, 4⟩ = .error .configurationError :=
  ⟨rfl, rfl, rfl, rfl, rfl, rfl⟩
/-- R7's table for V7's third and fifth rows. -/
theorem test_sizes :
    cPap.bankEntries = 4 ∧ cPap.phtEntries = 16 ∧ cSap.bankEntries = 4 ∧ cSap.phtEntries = 64 ∧ cGag.stateBits = 12 := by
  decide
theorem test_assemble_config :
    parseConfig ".config PAs W=2 S=2 A=4 K=2".toList = some ⟨3, 2, 2, 4, 2, 4⟩ ∧
    parseConfig ".config PAg W=2 S=2 A=3 IB=1 ; P9".toList = some ⟨1, 2, 2, 3, 0, 1⟩ ∧
    parseConfig ".config SAp W=2 S=2 A=4 K=2".toList = some ⟨4, 2, 2, 4, 2, 2⟩ := by decide
theorem test_assemble_lines :
    assembleLine cPag "branch 01, T ; text".toList = some [.pagPredict (bv [0, 1]), .pagUpdate (bv [0, 1]) .taken] ∧
    assembleLine cPag "update 0b10, N".toList = some [.pagUpdate (bv [1, 0]) .notTaken] ∧
    assembleLine cPag "predict 101".toList = none ∧ assembleLine cPag "update 10 N".toList = none := by decide

/-! ## Witnesses: a state and operands that meet a statement's hypotheses -/

theorem inv_sGag : sGag.Inv := ⟨by decide, by decide, by decide, by decide, by decide, by decide, by decide, by decide⟩
theorem inv_sPag : sPag.Inv := ⟨by decide, by decide, by decide, by decide, by decide, by decide, by decide, by decide⟩
theorem inv_sPap : sPap.Inv := ⟨by decide, by decide, by decide, by decide, by decide, by decide, by decide, by decide⟩
theorem inv_sPas : sPas.Inv := ⟨by decide, by decide, by decide, by decide, by decide, by decide, by decide, by decide⟩
theorem inv_sSap : sSap.Inv := ⟨by decide, by decide, by decide, by decide, by decide, by decide, by decide, by decide⟩

theorem witness_EncodedCommandDecodesBack : (Instr.sapUpdate (bv [1, 0, 0, 1]) .taken).wf cSap = true := by decide
theorem witness_CommandWordFields :
    (bv [1, 0, 0, 0]).length = cPag.a + 2 ∧ bit (bv [1, 0, 0, 0]) 0 = false ∧
    (bv [1, 1, 1, 1]).length = cPag.a + 2 ∧ bit (bv [1, 1, 1, 1]) 0 = true ∧ 1 < cPag.a := by decide
theorem witness_EveryPortWordIsOneCommand :
    (bv [1, 0, 0, 0]).length = cPag.a + 2 ∧ (bv [1, 0, 0]).length ≠ cPag.a + 2 := by decide
theorem witness_PredictIgnoresActualBit : (bv [1, 0]).length = sPag.cfg.a := by decide
theorem witness_VariantStrapValues :
    5 ≤ (Straps.mk 5 2 2 4 0 4).variant.toNat ∧ 5 ≤ (Straps.mk 7 2 2 4 0 4).variant.toNat ∧
    ∃ t, step (sPag.withInputs [.command (bv [0, 1, 1, 1])]) = .next t := ⟨by decide, by decide, _, rfl⟩
theorem witness_StepRunsTheDecodedCommand :
    (sPag.withInputs [.command (bv [0, 1, 1, 1])]).inputs = .command (bv [0, 1, 1, 1]) :: [] ∧
    decode sPag.cfg (bv [0, 1, 1, 1]) = .ok (.pagUpdate (bv [0, 1]) .taken) := ⟨rfl, rfl⟩
theorem witness_StepWithoutInputChangesNothing : State.reset.inputs = [] := rfl
theorem witness_WrongWidthAborts :
    ((sPag.withInputs [.command (bv [1, 1, 1])]).inputs = .command (bv [1, 1, 1]) :: [] ∧
      (bv [1, 1, 1]).length ≠ sPag.cfg.a + 2) ∧
    ((Instr.pagPredict (bv [1, 1, 1])).variant = sPag.cfg.variant ∧
      (Instr.pagPredict (bv [1, 1, 1])).addr.length ≠ sPag.cfg.a) := ⟨⟨rfl, by decide⟩, by decide⟩
theorem witness_OtherVariantsCommandIsRefused :
    (Instr.gagPredict (bv [1, 1])).variant ≠ sPag.cfg.variant ∧
    readPort sPag (bv [1, 1, 0, 0]) = .ok (.pagPredict (bv [1, 1])) := ⟨by decide, rfl⟩
theorem witness_ResetInputRestoresConstruction :
    (sPag.withInputs [.reset]).inputs = .reset :: [] ∧
    construct ⟨1, 2, 2, 2, 0, 2⟩ = .ok (State.init cPag) ∧ (State.init cPag).cfg = sPag.cfg := ⟨rfl, rfl, rfl⟩
theorem witness_ConstructionLegality :
    (∃ s, construct ⟨1, 1, 1, 1, 0, 1⟩ = .ok s) ∧ (∃ s, construct ⟨4, 1, 1, 1, 1, 0⟩ = .ok s) ∧
    construct ⟨4, 1, 1, 1, 0, 1⟩ = .error .configurationError := ⟨⟨_, rfl⟩, ⟨_, rfl⟩, rfl⟩
theorem witness_ConstructedInstanceIsZero :
    construct ⟨3, 2, 2, 4, 2, 4⟩ = .ok (State.init cPas) ∧ cPas.variant.takesK = true ∧ cPas.variant.takesIB = true ∧
    15 < cPas.bankEntries ∧ 15 < cPas.phtEntries ∧
    construct ⟨0, 2, 2, 2, 0, 0⟩ = .ok (State.init cGag) ∧ cGag.variant = .gag := ⟨rfl, by decide⟩
theorem witness_DerivedSizes :
    cGag.variant = .gag ∧ cPag.variant = .pag ∧ cPap.variant = .pap ∧ cPas.variant = .pas ∧ cSap.variant = .sap := by decide
theorem witness_BitVectorValueLaws :
    3 < 2 ^ 2 ∧ 2 ≤ (bv [1, 0]).length ∧ 1 < (bv [1, 0]).length ∧ 1 ≤ 1 ∧ 0 < 1 + 1 - 1 := by decide
theorem witness_InsertShiftsLeft : bv [1, 0] ≠ [] ∧ (bv [1, 1]).length = (bv [1, 0]).length ∧ 0 + 1 < 2 := by decide
theorem witness_BankReadAfterWrite :
    Cells.wf (zeros sPag.cfg.w) sPag.bank ∧ (val (bv [1, 1]) < sPag.cfg.bankEntries ∧ (bv [1, 0]).length = sPag.cfg.w) ∧
    (bv [1]).length ≠ sPag.cfg.w ∧ sPag.cfg.bankEntries ≤ val (bv [1, 0, 0]) ∧ val (bv [0, 1]) ≠ val (bv [1, 1]) := by
  decide
theorem witness_PhtReadAfterWrite :
    Cells.wf (zeros sPag.cfg.s) sPag.pht ∧ val (bv [1, 1]) < sPag.cfg.phtEntries ∧
    sPag.cfg.phtEntries ≤ val (bv [1, 0, 0]) ∧ val (bv [0, 1]) ≠ val (bv [1, 1]) := by decide
theorem witness_CounterDirection : bv [1] ≠ [] ∧ 1 ≤ 1 := by decide
theorem witness_FoldClosedForm : 1 ≤ 2 ∧ 1 < 2 := by decide
theorem witness_FoldLaws :
    bv [1, 0] ≠ [] ∧ 1 ≤ 2 ∧ (bv [1, 0]).length ≤ 2 ∧ (bv [1, 0]).length = (bv [0, 1]).length := by decide
theorem witness_FoldFibres : 1 ≤ 2 ∧ 2 ≤ 4 ∧ 4 ≤ 4 ∧ (bv [1, 1]).length = 2 := by decide
theorem witness_KeyOfEachVariant :
    (sGag.Inv ∧ (bv [0, 1]).length = sGag.cfg.a ∧ sGag.cfg.variant = .gag) ∧
    (sPag.Inv ∧ (bv [0, 1]).length = sPag.cfg.a ∧ sPag.cfg.variant = .pag) ∧
    (sPap.Inv ∧ (bv [0, 1]).length = sPap.cfg.a ∧ sPap.cfg.variant = .pap) ∧
    (sPas.Inv ∧ (bv [1, 0, 0, 1]).length = sPas.cfg.a ∧ sPas.cfg.variant = .pas) ∧
    (sSap.Inv ∧ (bv [1, 0, 0, 1]).length = sSap.cfg.a ∧ sSap.cfg.variant = .sap) :=
  ⟨⟨inv_sGag, rfl, rfl⟩, ⟨inv_sPag, rfl, rfl⟩, ⟨inv_sPap, rfl, rfl⟩, ⟨inv_sPas, rfl, rfl⟩, ⟨inv_sSap, rfl, rfl⟩⟩
/-- Cell 7 is the last cell of address `01`'s four cells 4 to 7; the command is of address `10`. -/
theorem witness_AddressTaggedCellsArePrivate :
    sPap.Inv ∧ (sPap.cfg.variant = .pap ∨ sPap.cfg.variant = .sap) ∧ (bv [0, 1]).length = sPap.cfg.a ∧
    key sPap (bv [0, 1]) = .ok (bv [0, 1, 1, 1]) ∧ key sPap (bv [1, 0]) = .ok (bv [1, 0, 0, 0]) ∧ bv [0, 1] ≠ bv [1, 0] ∧
    (∃ t, exec (.papUpdate (bv [1, 0]) .taken) sPap = .next t) ∧ (Instr.papUpdate (bv [1, 0]) .taken).addr ≠ bv [0, 1] ∧
    val (bv [0, 1]) * 2 ^ sPap.cfg.w ≤ 7 ∧ 7 < (val (bv [0, 1]) + 1) * 2 ^ sPap.cfg.w :=
  ⟨inv_sPap, .inl rfl, rfl, rfl, rfl, by decide, ⟨_, rfl⟩, by decide, by decide, by decide⟩
/-- P3: `1001` and `0011` fold alike; with no history in either entry they share the cell `1100`. -/
theorem witness_PasKeysCollideWithinASet :
    (State.init cPas).Inv ∧ (bv [1, 0, 0, 1]).length = cPas.a ∧
    key (State.init cPas) (bv [1, 0, 0, 1]) = .ok (bv [1, 1, 0, 0]) ∧
    key (State.init cPas) (bv [0, 0, 1, 1]) = .ok (bv [1, 1, 0, 0]) :=
  ⟨⟨by decide, by decide, by decide, by decide, by decide, by decide, by decide, by decide⟩, rfl, rfl, rfl⟩
theorem witness_SameHistorySameAnswer :
    sPag.Inv ∧ (sPag.cfg.variant = .gag ∨ sPag.cfg.variant = .pag) ∧
    hist sPag (bv [0, 0]) = hist sPag (bv [1, 0]) ∧ sGag.Inv ∧ hist sGag (bv [0, 0]) = hist sGag (bv [1, 0]) :=
  ⟨inv_sPag, .inr rfl, rfl, inv_sGag, rfl⟩
theorem witness_GagPredictResult :
    sGag.Inv ∧ sGag.cfg.variant = .gag ∧ (bv [0, 1]).length = sGag.cfg.a ∧
    (State.init cGag).Inv ∧ State.init cGag = State.init (State.init cGag).cfg :=
  ⟨inv_sGag, rfl, rfl, ⟨by decide, by decide, by decide, by decide, by decide, by decide, by decide, by decide⟩, rfl⟩
theorem witness_GagUpdateResult :
    sGag.Inv ∧ sGag.cfg.variant = .gag ∧ (bv [0, 1]).length = sGag.cfg.a ∧
    sGag.bhr = List.replicate sGag.cfg.w (tbit .taken) := ⟨inv_sGag, rfl, rfl, rfl⟩
theorem witness_PagPredictResult : sPag.Inv ∧ sPag.cfg.variant = .pag ∧ (bv [0, 1]).length = sPag.cfg.a :=
  ⟨inv_sPag, rfl, rfl⟩
theorem witness_PagUpdateResult : sPag.Inv ∧ sPag.cfg.variant = .pag ∧ (bv [1, 1]).length = sPag.cfg.a :=
  ⟨inv_sPag, rfl, rfl⟩
theorem witness_PapPredictResult : sPap.Inv ∧ sPap.cfg.variant = .pap ∧ (bv [0, 1]).length = sPap.cfg.a :=
  ⟨inv_sPap, rfl, rfl⟩
theorem witness_PapUpdateResult : sPap.Inv ∧ sPap.cfg.variant = .pap ∧ (bv [1, 1]).length = sPap.cfg.a :=
  ⟨inv_sPap, rfl, rfl⟩
theorem witness_PasPredictResult : sPas.Inv ∧ sPas.cfg.variant = .pas ∧ (bv [1, 0, 0, 1]).length = sPas.cfg.a :=
  ⟨inv_sPas, rfl, rfl⟩
/-- `K = A`: the fold of a PAs instance that separates its addresses. -/
theorem witness_PasPredictResult_wideFold :
    (State.init ⟨.pas, 1, 1, 2, 2, 2⟩).Inv ∧
    (State.init ⟨.pas, 1, 1, 2, 2, 2⟩).cfg.a ≤ (State.init ⟨.pas, 1, 1, 2, 2, 2⟩).cfg.k ∧
    fold (bv [0, 1]) 2 = fold (bv [0, 1]) 2 ∧ fold (bv [1, 0]) 2 ≠ fold (bv [0, 1]) 2 :=
  ⟨⟨by decide, by decide, by decide, by decide, by decide, by decide, by decide, by decide⟩, by decide, rfl, by decide⟩
theorem witness_PasUpdateResult : sPas.Inv ∧ sPas.cfg.variant = .pas ∧ (bv [1, 1, 1, 1]).length = sPas.cfg.a :=
  ⟨inv_sPas, rfl, rfl⟩
theorem witness_SapPredictResult : sSap.Inv ∧ sSap.cfg.variant = .sap ∧ (bv [1, 0, 0, 1]).length = sSap.cfg.a :=
  ⟨inv_sSap, rfl, rfl⟩
theorem witness_SapUpdateResult : sSap.Inv ∧ sSap.cfg.variant = .sap ∧ (bv [1, 1, 1, 1]).length = sSap.cfg.a :=
  ⟨inv_sSap, rfl, rfl⟩
theorem witness_CommandsAreTheGenericOnes : (bv [0, 1]).length = sPag.cfg.a := rfl
theorem witness_PredictFrame :
    (Instr.pasPredict (bv [1, 0, 0, 1])).actual = none ∧ ∃ t, exec (.pasPredict (bv [1, 0, 0, 1])) sPas = .next t :=
  ⟨rfl, _, rfl⟩
theorem witness_UpdateFrame :
    (Instr.sapUpdate (bv [1, 0, 0, 1]) .taken).actual = some .taken ∧
    (∃ t, exec (.sapUpdate (bv [1, 0, 0, 1]) .taken) sSap = .next t) ∧
    key sSap (bv [1, 0, 0, 1]) = .ok (bv [1, 0, 0, 1, 0, 1]) ∧ 0 ≠ val (bv [1, 0, 0, 1, 0, 1]) ∧
    0 ≠ val (bankidx sSap.cfg (bv [1, 0, 0, 1])) ∧ sSap.cfg.variant ≠ .gag :=
  ⟨rfl, ⟨_, rfl⟩, rfl, by decide, by decide, by decide⟩
theorem witness_UpdateFrame_gag :
    (∃ t, exec (.gagUpdate (bv [0, 1]) .taken) (sGag.withPviol true) = .next t) ∧ sGag.cfg.variant = .gag ∧
    (sGag.withPviol true).pviol = true := ⟨⟨_, rfl⟩, rfl, rfl⟩
theorem witness_PredictTwiceIsPredictOnce :
    (Instr.gagPredict (bv [0, 1])).actual = none ∧ ∃ t, exec (.gagPredict (bv [0, 1])) sGag = .next t := ⟨rfl, _, rfl⟩
theorem witness_TransactionEffect :
    sSap.Inv ∧ (bv [1, 0, 0, 1]).length = sSap.cfg.a ∧ 0 ≠ val (bankidx sSap.cfg (bv [1, 0, 0, 1])) :=
  ⟨inv_sSap, rfl, by decide⟩
theorem witness_UpdateDoesNotReadThePht :
    (Instr.papUpdate (bv [0, 1]) .taken).actual = some .taken ∧
    ∃ t, exec (.papUpdate (bv [0, 1]) .taken) sPap = .next t := ⟨rfl, _, rfl⟩
theorem witness_CheckerIsNotReadByTheDatapath :
    (bv [1, 1]).length = sPap.paddr.length ∧ ∃ t, exec (.papUpdate (bv [0, 1]) .taken) sPap = .next t := ⟨rfl, _, rfl⟩
theorem witness_UntakenParametersHaveNoEffect :
    (∃ t, exec (.papUpdate (bv [0, 1]) .taken) sPap = .next t) ∧ sPap.cfg.variant.takesK = false ∧
    (∃ t, exec (.sapPredict (bv [1, 0, 0, 1])) sSap = .next t) ∧ sSap.cfg.variant.takesIB = false :=
  ⟨⟨_, rfl⟩, rfl, ⟨_, rfl⟩, rfl⟩
theorem witness_ConfigurationNeverChanges :
    (∃ t, step (sPag.withInputs [.command (bv [0, 1, 1, 1])]) = .next t) ∧
    ∃ t, step (sPag.withInputs [.reset]) = .next t := ⟨⟨_, rfl⟩, ⟨_, rfl⟩⟩
/-- P4: `1001` and `0011` select the same entry of SAp's bank, `0101` another. -/
theorem witness_UpdateShiftsTheSelectedHistory :
    sSap.Inv ∧ (bv [1, 0, 0, 1]).length = sSap.cfg.a ∧ (bv [0, 0, 1, 1]).length = sSap.cfg.a ∧
    bankidx sSap.cfg (bv [1, 0, 0, 1]) = bankidx sSap.cfg (bv [0, 0, 1, 1]) ∧
    bankidx sSap.cfg (bv [1, 0, 0, 1]) ≠ bankidx sSap.cfg (bv [0, 1, 0, 1]) := ⟨inv_sSap, rfl, rfl, rfl, by decide⟩
/-- V8's rows: PREDICT; UPDATE that matches, that does not, and with nothing pending. -/
theorem witness_ProtocolStateMachine :
    (∃ t, exec (.pagPredict (bv [0, 1])) sPag = .next t) ∧
    (∃ t, exec (.pagUpdate (bv [0, 1]) .taken) (predicted sPag (bv [0, 1]) (bv [1, 0])) = .next t) ∧
    (predicted sPag (bv [0, 1]) (bv [1, 0])).protocol = .pending (bv [0, 1]) ∧
    (∃ t, exec (.pagUpdate (bv [1, 1]) .taken) (predicted sPag (bv [0, 1]) (bv [1, 0])) = .next t) ∧
    (predicted sPag (bv [0, 1]) (bv [1, 0])).protocol ≠ .pending (bv [1, 1]) ∧
    (∃ t, exec (.pagUpdate (bv [0, 1]) .taken) sPag = .next t) ∧ sPag.protocol = .idle ∧ sPag.Inv :=
  ⟨⟨_, rfl⟩, ⟨_, rfl⟩, rfl, ⟨_, rfl⟩, by decide, ⟨_, rfl⟩, rfl, inv_sPag⟩
theorem witness_ViolationFlagIsSticky :
    (sPag.withPviol true).pviol = true ∧
    (∃ t, step ((sPag.withPviol true).withInputs [.command (bv [0, 1, 0, 0])]) = .next t) ∧
    ∃ t, step ((sPag.withPviol true).withInputs [.reset]) = .next t := ⟨rfl, ⟨_, rfl⟩, ⟨_, rfl⟩⟩
/-- A run that keeps the protocol and one that does not. -/
theorem witness_ViolationFlagRecordsTheRun :
    allFit cPag [.pagPredict (bv [0, 1]), .pagUpdate (bv [0, 1]) .taken] = true ∧
    (∃ t, runOn (present [.pagPredict (bv [0, 1]), .pagUpdate (bv [0, 1]) .taken]) sPag = .next t ∧ t.pviol = false) ∧
    allFit cPag [.pagPredict (bv [1, 0]), .pagUpdate (bv [0, 1]) .taken] = true ∧
    ∃ t, runOn (present [.pagPredict (bv [1, 0]), .pagUpdate (bv [0, 1]) .taken]) sPag = .next t ∧ t.pviol = true :=
  ⟨rfl, ⟨_, rfl, rfl⟩, rfl, ⟨_, rfl, rfl⟩⟩
theorem witness_ConstructedInstanceHasTheInvariants : construct ⟨1, 2, 2, 2, 0, 2⟩ = .ok (State.init cPag) := rfl
theorem witness_StepKeepsTheInvariant :
    (sPag.withInputs [.command (bv [0, 1, 1, 1])]).Inv ∧
    ∃ t, step (sPag.withInputs [.command (bv [0, 1, 1, 1])]) = .next t :=
  ⟨⟨by decide, by decide, by decide, by decide, by decide, by decide, by decide, by decide⟩, _, rfl⟩
/-- A pending state with the counter in `CTR`, and a second PREDICT from it. -/
theorem witness_StepKeepsThePendingCounter :
    ((predicted sPag (bv [0, 1]) (bv [1, 0])).withInputs [.command (bv [1, 0, 0, 0])]).PendingCounter ∧
    ∃ t, step ((predicted sPag (bv [0, 1]) (bv [1, 0])).withInputs [.command (bv [1, 0, 0, 0])]) = .next t :=
  ⟨fun _ => ⟨⟨bv [1, 1], rfl, rfl⟩, rfl⟩, _, rfl⟩
theorem witness_NormalOperationRaisesNothing :
    sSap.Inv ∧ (Instr.sapPredict (bv [1, 1, 1, 1])).wf sSap.cfg = true ∧
    (bv [1, 1, 1, 1, 1, 1]).length = sSap.cfg.a + 2 := ⟨inv_sSap, rfl, rfl⟩
theorem witness_RunsFromConstructionComplete :
    construct ⟨1, 2, 2, 2, 0, 2⟩ = .ok (State.init cPag) ∧
    allFit (State.init cPag).cfg [.pagPredict (bv [0, 1]), .pagUpdate (bv [1, 1]) .notTaken] = true := ⟨rfl, rfl⟩
/-- All cells below `2^(S−1)`: a PHT whose only listed cell holds `01`. -/
theorem witness_UntrainedAnswersNotTaken :
    (st cPag [] [(1, bv [1, 1])] [(3, bv [0, 1])]).Inv ∧ (bv [0, 1]).length = cPag.a ∧
    ∀ j, j < cPag.phtEntries → val ((st cPag [] [(1, bv [1, 1])] [(3, bv [0, 1])]).phtCell j) < 2 ^ (cPag.s - 1) :=
  ⟨⟨by decide, by decide, by decide, by decide, by decide, by decide, by decide, by decide⟩, rfl, by decide⟩
theorem witness_HistoryHoldsTheLastOutcomes :
    (construct ⟨0, 2, 2, 2, 0, 0⟩ = .ok (State.init cGag) ∧ cGag.variant = .gag ∧
      allFit cGag [.gagPredict (bv [0, 1]), .gagUpdate (bv [0, 1]) .taken] = true ∧
      ∃ t, runOn (present [.gagPredict (bv [0, 1]), .gagUpdate (bv [0, 1]) .taken]) (State.init cGag) = .next t) ∧
    (construct ⟨1, 2, 2, 2, 0, 2⟩ = .ok (State.init cPag) ∧ cPag.variant ≠ .gag ∧ 3 < cPag.bankEntries ∧
      allFit cPag [.pagUpdate (bv [1, 1]) .taken] = true ∧
      ∃ t, runOn (present [.pagUpdate (bv [1, 1]) .taken]) (State.init cPag) = .next t) :=
  ⟨⟨rfl, rfl, rfl, _, rfl⟩, ⟨rfl, by decide, by decide, rfl, _, rfl⟩⟩
/-- P2's PAp half: commands of `10` leave what a PREDICT of `01` reads. -/
theorem witness_PapPredictionIsIndependentOfOtherAddresses :
    sPap.Inv ∧ sPap.cfg.variant = .pap ∧ sPap.cfg.ib = sPap.cfg.a ∧ (bv [0, 1]).length = sPap.cfg.a ∧
    allFit sPap.cfg [.papPredict (bv [1, 0]), .papUpdate (bv [1, 0]) .taken] = true ∧
    (∀ i ∈ [Instr.papPredict (bv [1, 0]), Instr.papUpdate (bv [1, 0]) .taken], i.addr ≠ bv [0, 1]) ∧
    ∃ t, runOn (present [.papPredict (bv [1, 0]), .papUpdate (bv [1, 0]) .taken]) sPap = .next t :=
  ⟨inv_sPap, rfl, rfl, rfl, rfl, by decide, _, rfl⟩
theorem witness_QueuedInputsRunOneAfterAnother : sPag.inputs = [] := rfl
theorem witness_AssemblerReadsEveryCommand :
    1 ≤ cPag.a ∧ (Instr.pagUpdate (bv [1, 0]) .notTaken).wf cPag = true ∧ (bv [1, 0]).length = cPag.a := by decide

end Sys2Proof.Tests
end

section
/-! PROOFS. Values, low bits, bits and slices of BitVectors (spec/00_scope.md R10, R11). -/

namespace Sys2Proof

/-- `bits_n` keeps the low `n` bits of the number, as the definition says of a `k` past `2^n − 1`. -/
theorem val_bitsOf (n k : Nat) : val (bitsOf n k) = k % 2 ^ n := by
  induction n with
  | zero => simp [bitsOf, val, Nat.mod_one]
  | succ n ih =>
    rw [bitsOf, val, length_bitsOf, ih, Nat.mod_pow_succ, Nat.toNat_testBit]
    ring

theorem val_bitsOf_of_lt {n k : Nat} (h : k < 2 ^ n) : val (bitsOf n k) = k := by
  rw [val_bitsOf, Nat.mod_eq_of_lt h]

theorem bitsOf_val (v : Bits) : bitsOf v.length (val v) = v :=
  eq_of_val_eq (length_bitsOf _ _) (val_bitsOf_of_lt (val_lt_two_pow v))

theorem val_low {v : Bits} {i : Nat} (h : i ≤ v.length) : val (low v i) = val v % 2 ^ i := by
  have hsplit := val_append (v.take (v.length - i)) (low v i)
  have hlt := val_lt_two_pow (low v i)
  rw [length_low h] at hsplit hlt
  rw [low, List.take_append_drop, ← low] at hsplit
  rw [hsplit, Nat.mul_add_mod_of_lt hlt]

/-- The first element has the weight `2^(n−1)`, and the others keep theirs. -/
theorem bit_cons (x : Bit) (v : Bits) (b : Nat) : bit (x :: v) b = if b = v.length then x else bit v b := by
  rcases Nat.lt_trichotomy b v.length with hlt | rfl | hgt
  · have hpos : v.length - b = v.length - 1 - b + 1 := by omega
    simp [bit, elem, hlt, Nat.lt_succ_of_lt hlt, Nat.ne_of_lt hlt, hpos]
  · simp [bit, elem]
  · simp [bit, Nat.ne_of_gt hgt, Nat.not_lt_of_gt hgt, Nat.not_le_of_gt hgt]

/-- `v[b]` is the bit of weight `2^b` of the value; past the width both are 0. -/
theorem bit_eq_testBit_val (v : Bits) (b : Nat) : bit v b = (val v).testBit b := by
  induction v with
  | nil => simp [bit, val]
  | cons x v ih =>
    rw [bit_cons, val, Nat.mul_comm, Nat.testBit_two_pow_mul_add _ (val_lt_two_pow v), ih, Nat.testBit_bool_toNat]
    rcases Nat.lt_trichotomy b v.length with hlt | rfl | hgt
    · simp [hlt, Nat.ne_of_lt hlt]
    · simp
    · have hout : (val v).testBit b = false :=
        Nat.testBit_eq_false_of_lt ((val_lt_two_pow v).trans (Nat.pow_lt_pow_right Nat.one_lt_two hgt))
      simp [hout, Nat.ne_of_gt hgt, Nat.not_lt_of_gt hgt, Nat.sub_ne_zero_of_lt hgt]

theorem length_slice {v : Bits} {hi : Nat} (lo : Nat) (hhi : hi < v.length) :
    (slice v hi lo).length = hi + 1 - lo := by
  simp only [slice, List.length_take, List.length_drop]
  omega

theorem bit_slice {v : Bits} {hi lo b : Nat} (hhi : hi < v.length) (hb : b < hi + 1 - lo) :
    bit (slice v hi lo) b = bit v (lo + b) := by
  have hpos : v.length - 1 - hi + (hi + 1 - lo - 1 - b) = v.length - 1 - (lo + b) := by omega
  have hin : hi + 1 - lo - 1 - b < hi + 1 - lo := by omega
  have hlt : lo + b < v.length := by omega
  rw [bit, length_slice lo hhi, if_pos hb, bit, if_pos hlt]
  simp only [elem, slice, List.getD_eq_getElem?_getD, List.getElem?_take_of_lt hin, List.getElem?_drop, hpos]

/-- Settles O15: the laws of this section, one for each clause. -/
theorem bitVectorValueLaws : Obligations.BitVectorValueLaws :=
  ⟨fun v => ⟨val_lt_two_pow v, bitsOf_val v⟩,
    fun _ _ h => ⟨length_bitsOf _ _, val_bitsOf_of_lt h⟩,
    val_append,
    fun _ _ h => ⟨length_low h, val_low h⟩,
    fun v b _ => bit_eq_testBit_val v b,
    fun _ _ _ _ _ hhi hb => ⟨length_slice _ hhi, bit_slice hhi hb⟩⟩

end Sys2Proof
end

section
/-! PROOFS. A command belongs to one variant: what the port decodes is of the strapped variant, and a command of another
is refused (spec/00_scope.md R2, spec/30_encoding.md R66). -/

namespace Sys2Proof

@[simp] theorem variant_predictOf (v : Variant) (addr : Bits) : (predictOf v addr).variant = v := by
  cases v <;> rfl

@[simp] theorem variant_updateOf (v : Variant) (addr : Bits) (r : BranchResult) : (updateOf v addr r).variant = v := by
  cases v <;> rfl

theorem variant_of_decode {c : Config} {cw : Bits} {i : Instr} (h : decode c cw = .ok i) : i.variant = c.variant := by
  simp only [decode] at h
  split at h
  · split at h
    · cases h
      exact variant_updateOf _ _ _
    · cases h
      exact variant_predictOf _ _
  · cases h

namespace Machine

theorem readPort_eq_ok {s : State} {cw : Bits} {i : Instr} : readPort s cw = .ok i ↔ decode s.cfg cw = .ok i := by
  simp only [readPort]
  split <;> simp_all

theorem atPort_of_variant_ne {v : Variant} {s : State} (h : v ≠ s.cfg.variant) (addr : Bits) (x : Except Fault State) :
    atPort v addr s x = .refused .otherVariant :=
  if_neg (Ne.symm h)

/-- Every command is some transition behind the port of its own variant and address. -/
theorem exec_eq_atPort (i : Instr) (s : State) : ∃ x, exec i s = atPort i.variant i.addr s x := by
  cases i <;> exact ⟨_, rfl⟩

/-- Settles O10: every command passes its port first, and the decoder builds commands of the strapped variant. -/
theorem otherVariantsCommandIsRefused : Obligations.OtherVariantsCommandIsRefused := by
  refine ⟨fun s i hne => ?_, fun s cw i h => variant_of_decode (readPort_eq_ok.mp h)⟩
  obtain ⟨x, hx⟩ := exec_eq_atPort i s
  rw [hx, atPort_of_variant_ne hne]

end Machine

end Sys2Proof
end

section
/-! PROOFS. The sizes derived from a configuration (spec/00_scope.md R7). -/

namespace Sys2Proof

/-- Settles O14, one row of the table of R7 for each variant. -/
theorem derivedSizes : Obligations.DerivedSizes := by
  intro c
  refine ⟨fun hv => ?_, fun hv => ?_, fun hv => ?_, fun hv => ?_, fun hv => ?_, rfl⟩
  all_goals simp [Config.stateBits, Config.phtEntries, Config.keyWidth, Config.tagWidth, Config.bankEntries,
    Config.bankIndexWidth, Config.bhrWidth, hv]

end Sys2Proof
end

section
/-! PROOFS. What a completed command leaves in each field, for the two state shapes `afterPredict` and `afterUpdate`; that
no step changes the straps or clears `PVIOL` (spec/10_state.md R27, R28); and that the checker is read by no datapath rule
(R20, R25 to R27). -/

namespace Sys2Proof.Machine

section
variable (s : State) (addr k : Bits)

@[simp] theorem afterPredict_cfg : (afterPredict s addr k).cfg = s.cfg := rfl
@[simp] theorem afterPredict_bhr : (afterPredict s addr k).bhr = s.bhr := rfl
@[simp] theorem afterPredict_bank : (afterPredict s addr k).bank = s.bank := rfl
@[simp] theorem afterPredict_pht : (afterPredict s addr k).pht = s.pht := rfl
@[simp] theorem afterPredict_ctr : (afterPredict s addr k).ctr = s.phtCell (val k) := rfl
@[simp] theorem afterPredict_pend : (afterPredict s addr k).pend = true := rfl
@[simp] theorem afterPredict_paddr : (afterPredict s addr k).paddr = addr := rfl
@[simp] theorem afterPredict_pviol : (afterPredict s addr k).pviol = s.pviol := rfl
@[simp] theorem afterPredict_inputs : (afterPredict s addr k).inputs = s.inputs := rfl
@[simp] theorem afterPredict_rsp : (afterPredict s addr k).rsp = some (direction (s.phtCell (val k))) := rfl

end

section
variable (s : State) (addr : Bits) (r : BranchResult) (h k : Bits)

@[simp] theorem afterUpdate_cfg : (afterUpdate s addr r h k).cfg = s.cfg := rfl
@[simp] theorem afterUpdate_ctr : (afterUpdate s addr r h k).ctr = s.ctr := rfl
@[simp] theorem afterUpdate_pend : (afterUpdate s addr r h k).pend = false := rfl
@[simp] theorem afterUpdate_paddr : (afterUpdate s addr r h k).paddr = s.paddr := rfl
@[simp] theorem afterUpdate_pviol : (afterUpdate s addr r h k).pviol = violates s addr := rfl
@[simp] theorem afterUpdate_inputs : (afterUpdate s addr r h k).inputs = s.inputs := rfl
@[simp] theorem afterUpdate_rsp : (afterUpdate s addr r h k).rsp = none := rfl
@[simp] theorem afterUpdate_pht : (afterUpdate s addr r h k).pht =
    Cells.write (zeros s.cfg.s) (val k) (advance s.ctr (decide (r = .taken))) s.pht := rfl

theorem afterUpdate_bhr_of_gag (hv : s.cfg.variant = .gag) :
    (afterUpdate s addr r h k).bhr = insertBit h (tbit r) := if_pos hv

theorem afterUpdate_bhr_of_ne_gag (hv : s.cfg.variant ≠ .gag) : (afterUpdate s addr r h k).bhr = s.bhr := if_neg hv

theorem afterUpdate_bank_of_gag (hv : s.cfg.variant = .gag) : (afterUpdate s addr r h k).bank = s.bank := if_pos hv

theorem afterUpdate_bank_of_ne_gag (hv : s.cfg.variant ≠ .gag) : (afterUpdate s addr r h k).bank =
    Cells.write (zeros s.cfg.w) (val (bankidx s.cfg addr)) (insertBit h (tbit r)) s.bank := if_neg hv

end

/-- The two shapes of the state after a completed command, with the history and the key that it used. -/
theorem exec_cases {i : Instr} {s t : State} (hx : exec i s = .next t) :
    (∃ k, i.actual = none ∧ key s i.addr = .ok k ∧ val k < s.cfg.phtEntries ∧ t = afterPredict s i.addr k) ∨
    (∃ r h k, i.actual = some r ∧ hist s i.addr = .ok h ∧ key s i.addr = .ok k ∧ val k < s.cfg.phtEntries ∧
      t = afterUpdate s i.addr r h k) := by
  cases hi : i.actual with
  | none =>
    obtain ⟨-, -, k, hk, hlt, -, ht⟩ := (exec_predict_eq_next hi).mp hx
    exact .inl ⟨k, rfl, hk, hlt, ht⟩
  | some r =>
    obtain ⟨-, -, -, h, k, hh, hk, hlt, -, ht⟩ := (exec_update_eq_next hi).mp hx
    exact .inr ⟨r, h, k, rfl, hh, hk, hlt, ht⟩

theorem exec_addr_length {i : Instr} {s t : State} (hx : exec i s = .next t) : i.addr.length = s.cfg.a := by
  cases hi : i.actual with
  | none =>
    obtain ⟨-, ha, -⟩ := (exec_predict_eq_next hi).mp hx
    exact ha
  | some r =>
    obtain ⟨-, ha, -⟩ := (exec_update_eq_next hi).mp hx
    exact ha

theorem exec_cfg {i : Instr} {s t : State} (hx : exec i s = .next t) : t.cfg = s.cfg := by
  obtain ⟨k, -, -, -, rfl⟩ | ⟨r, h, k, -, -, -, -, rfl⟩ := exec_cases hx
  · rfl
  · rfl

/-- Settles O46: by the three things a step can have been; a command keeps the straps by `exec_cfg`. -/
theorem configurationNeverChanges : Obligations.ConfigurationNeverChanges := by
  intro s t h
  rcases step_eq_next h with ⟨-, rfl⟩ | ⟨rest, -, rfl⟩ | ⟨cw, rest, i, -, -, hx⟩
  · rfl
  · rfl
  · simpa using exec_cfg hx

theorem exec_pviol_of_pviol {i : Instr} {s t : State} (hx : exec i s = .next t) (hs : s.pviol = true) :
    t.pviol = true := by
  obtain ⟨k, -, -, -, rfl⟩ | ⟨r, h, k, -, -, -, -, rfl⟩ := exec_cases hx
  · exact hs
  · simp [violates, hs]

/-- Settles O49: a command keeps a set flag (`exec_pviol_of_pviol`), so only the reset can have cleared it. -/
theorem violationFlagIsSticky : Obligations.ViolationFlagIsSticky := by
  intro s t hs h
  rcases step_eq_next h with ⟨-, rfl⟩ | ⟨rest, hin, rfl⟩ | ⟨cw, rest, i, -, -, hx⟩
  · exact .inl hs
  · exact .inr ⟨by simp [hin], rfl⟩
  · exact .inl (exec_pviol_of_pviol hx hs)

/-- The history an address selects depends on the straps, `BHR` and the bank alone. -/
theorem hist_congr {s t : State} (hc : t.cfg = s.cfg) (hbhr : t.bhr = s.bhr) (hbank : t.bank = s.bank) (addr : Bits) :
    hist t addr = hist s addr := by
  simp only [hist, bankRead, State.bankCell, hc, hbhr, hbank]

theorem key_congr {s t : State} (hc : t.cfg = s.cfg) (hbhr : t.bhr = s.bhr) (hbank : t.bank = s.bank) (addr : Bits) :
    key t addr = key s addr := by
  simp only [key, hist_congr hc hbhr hbank, hc]

/-- Settles O44: neither what makes a command complete nor the fields it leaves, the checker's own apart, mention the
checker registers; only the width of `PADDR` counts. -/
theorem checkerIsNotReadByTheDatapath : Obligations.CheckerIsNotReadByTheDatapath := by
  intro i s t pend pviol paddr hlen hx
  cases hi : i.actual with
  | none =>
    obtain ⟨hv, hl, k, hk, hlt, hw, rfl⟩ := (exec_predict_eq_next hi).mp hx
    refine ⟨_, (exec_predict_eq_next hi).mpr ⟨hv, hl, k, (key_congr rfl rfl rfl _).trans hk, hlt, hw, rfl⟩, rfl⟩
  | some r =>
    obtain ⟨hv, hl, hp, h, k, hh, hk, hlt, hw, rfl⟩ := (exec_update_eq_next hi).mp hx
    refine ⟨_, (exec_update_eq_next hi).mpr ⟨hv, hl, hlen.trans hp, h, k,
      (hist_congr rfl rfl rfl _).trans hh, (key_congr rfl rfl rfl _).trans hk, hlt, hw, rfl⟩, rfl⟩

end Sys2Proof.Machine
end

section
/-! PROOFS. Construction and the reset input: the one state they give, its values and its invariants (spec/10_state.md R31,
R32, spec/70_reset_and_hazards.md R160, R161). -/

namespace Sys2Proof

theorem Variant.code_of_ofStrap {b : BitVec 3} {v : Variant} (h : Variant.ofStrap b = some v) : v.code = b := by
  simp only [Variant.ofStrap] at h
  split_ifs at h <;> (cases h; subst b; rfl)

/-- The straps' legality (R141) in numbers, strap by strap. -/
theorem Straps.legalFor_iff {p : Straps} {v : Variant} :
    p.legalFor v = true ↔ 1 ≤ p.w ∧ 1 ≤ p.s ∧ 1 ≤ p.a ∧ (v.takesK = true → 1 ≤ p.k) ∧
      (v.takesIB = true → 1 ≤ p.ib ∧ p.ib ≤ p.a) := by
  cases hk : v.takesK <;> cases hib : v.takesIB <;> simp [Straps.legalFor, hk, hib, and_assoc]

theorem Config.legal_iff {c : Config} :
    c.legal = true ↔ 1 ≤ c.w ∧ 1 ≤ c.s ∧ 1 ≤ c.a ∧ (c.variant.takesK = true → 1 ≤ c.k) ∧
      (c.variant.takesIB = true → 1 ≤ c.ib ∧ c.ib ≤ c.a) := by
  cases hk : c.variant.takesK <;> cases hib : c.variant.takesIB <;> simp [Config.legal, hk, hib, and_assoc]

theorem Straps.legal_toConfig {p : Straps} {v : Variant} (h : p.legalFor v = true) : (p.toConfig v).legal = true := by
  obtain ⟨hw, hs, ha, hk, hib⟩ := Straps.legalFor_iff.mp h
  refine Config.legal_iff.mpr ⟨?_, ?_, ?_, fun hv => ?_, fun hv => ?_⟩
  · simp only [Straps.toConfig]; omega
  · simp only [Straps.toConfig]; omega
  · simp only [Straps.toConfig]; omega
  · have := hk hv
    simp only [Straps.toConfig]; omega
  · have := hib hv
    simp only [Straps.toConfig]; omega

theorem Config.bhrWidth_of_gag {c : Config} (hv : c.variant = .gag) : c.bhrWidth = c.w := by
  simp [Config.bhrWidth, hv]

namespace Machine

theorem construct_eq_ok {p : Straps} {s : State} :
    construct p = .ok s ↔ ∃ v, Variant.ofStrap p.variant = some v ∧ p.legalFor v = true ∧
      s = State.init (p.toConfig v) := by
  cases hv : Variant.ofStrap p.variant with
  | none => simp [construct, hv]
  | some v =>
    by_cases hl : p.legalFor v = true
    · simpa [construct, hv, hl] using eq_comm
    · simp [construct, hv, hl]

@[simp] theorem bankCell_init (c : Config) (j : Nat) : (State.init c).bankCell j = zeros c.w := rfl
@[simp] theorem phtCell_init (c : Config) (j : Nat) : (State.init c).phtCell j = zeros c.s := rfl

/-- Settles O13: a construction gives `State.init` of the straps' record, and legal straps are kept as they are. -/
theorem constructedInstanceIsZero : Obligations.ConstructedInstanceIsZero := by
  intro p s h
  obtain ⟨v, hv, hlegal, rfl⟩ := construct_eq_ok.mp h
  obtain ⟨hw, hs, ha, hk, hib⟩ := Straps.legalFor_iff.mp hlegal
  refine ⟨Variant.code_of_ofStrap hv, Int.toNat_of_nonneg (by omega), Int.toNat_of_nonneg (by omega),
    Int.toNat_of_nonneg (by omega), fun ht => ?_, fun ht => ?_, fun hg => ?_, fun j _ => rfl,
    fun j _ => rfl, rfl, rfl, rfl, rfl⟩
  · exact Int.toNat_of_nonneg (by have := hk ht; omega)
  · exact Int.toNat_of_nonneg (by have := hib ht; omega)
  · exact congrArg zeros (Config.bhrWidth_of_gag hg)

theorem step_of_reset {s : State} {rest : List Input} (h : s.inputs = .reset :: rest) :
    step s = .next ((State.init s.cfg).withInputs rest) := by
  simp [step, h, resetInstance]

/-- Settles O11: reset and construction both give `State.init` of the straps. -/
theorem resetInputRestoresConstruction : Obligations.ResetInputRestoresConstruction := by
  intro s rest hin
  refine ⟨_, step_of_reset hin, rfl, rfl, fun _ => rfl, fun _ => rfl, rfl, rfl, rfl, rfl, rfl, rfl, fun p u hu hc => ?_⟩
  obtain ⟨v, -, -, rfl⟩ := construct_eq_ok.mp hu
  rw [← hc, State.init_cfg]

theorem inv_init {c : Config} (h : c.legal = true) : (State.init c).Inv where
  legal := h
  bhr_width := length_zeros _
  bank_wf := ⟨List.Pairwise.nil, by simp⟩
  bank_within := by simp [Cells.within]
  pht_wf := ⟨List.Pairwise.nil, by simp⟩
  pht_within := by simp [Cells.within]
  ctr_width := length_zeros _
  paddr_width := length_zeros _

theorem pendingCounter_of_pend_false {s : State} (h : s.pend = false) : s.PendingCounter := by
  simp [State.PendingCounter, h]

/-- Settles O51: every construction gives `State.init` of a legal record, with nothing pending. -/
theorem constructedInstanceHasTheInvariants : Obligations.ConstructedInstanceHasTheInvariants := by
  refine ⟨inv_init (by decide), pendingCounter_of_pend_false rfl, fun p s h => ?_⟩
  obtain ⟨v, -, hlegal, rfl⟩ := construct_eq_ok.mp h
  exact ⟨inv_init (Straps.legal_toConfig hlegal), pendingCounter_of_pend_false rfl⟩

end Machine

end Sys2Proof
end

section
/-! PROOFS. What every step keeps: the invariant of R32 and the pending prediction's counter (spec/10_state.md R24, R32,
spec/41_common_state_machine.md R108). -/

namespace Sys2Proof.Machine

theorem hist_of_gag {s : State} (hv : s.cfg.variant = .gag) (addr : Bits) : hist s addr = .ok s.bhr := by
  simp [hist, hv]

theorem hist_of_ne_gag {s : State} (hv : s.cfg.variant ≠ .gag) (addr : Bits) :
    hist s addr = bankRead s (bankidx s.cfg addr) := by
  cases hc : s.cfg.variant <;> simp_all [hist]

section
variable {s : State}

theorem length_phtCell (hs : s.Inv) (j : Nat) : (s.phtCell j).length = s.cfg.s := Cells.length_read hs.pht_within j

theorem length_bankCell (hs : s.Inv) (j : Nat) : (s.bankCell j).length = s.cfg.w := Cells.length_read hs.bank_within j

theorem length_bhr_of_gag (hs : s.Inv) (hv : s.cfg.variant = .gag) : s.bhr.length = s.cfg.w :=
  hs.bhr_width.trans (Config.bhrWidth_of_gag hv)

theorem length_hist (hs : s.Inv) {addr h : Bits} (hh : hist s addr = .ok h) : h.length = s.cfg.w := by
  by_cases hv : s.cfg.variant = .gag
  · obtain rfl : s.bhr = h := by simpa [hist_of_gag hv] using hh
    exact length_bhr_of_gag hs hv
  · obtain ⟨-, rfl⟩ := bankRead_eq_ok.mp (hist_of_ne_gag hv addr ▸ hh)
    exact length_bankCell hs _

theorem inv_withInputs (hs : s.Inv) (xs : List Input) : (s.withInputs xs).Inv :=
  ⟨hs.legal, hs.bhr_width, hs.bank_wf, hs.bank_within, hs.pht_wf, hs.pht_within, hs.ctr_width, hs.paddr_width⟩

theorem inv_afterPredict (hs : s.Inv) {addr : Bits} (ha : addr.length = s.cfg.a) (k : Bits) :
    (afterPredict s addr k).Inv :=
  { hs with ctr_width := length_phtCell hs _, paddr_width := ha }

theorem inv_afterUpdate (hs : s.Inv) {addr h k : Bits} (r : BranchResult) (hh : hist s addr = .ok h)
    (hk : val k < s.cfg.phtEntries) : (afterUpdate s addr r h k).Inv where
  legal := hs.legal
  bhr_width := by
    by_cases hv : s.cfg.variant = .gag
    · rw [afterUpdate_bhr_of_gag _ _ _ _ _ hv, length_insertBit, length_hist hs hh]
      exact (Config.bhrWidth_of_gag hv).symm
    · rw [afterUpdate_bhr_of_ne_gag _ _ _ _ _ hv]
      exact hs.bhr_width
  bank_wf := by
    by_cases hv : s.cfg.variant = .gag
    · rw [afterUpdate_bank_of_gag _ _ _ _ _ hv]
      exact hs.bank_wf
    · rw [afterUpdate_bank_of_ne_gag _ _ _ _ _ hv]
      exact Cells.wf_write hs.bank_wf _ _
  bank_within := by
    by_cases hv : s.cfg.variant = .gag
    · rw [afterUpdate_bank_of_gag _ _ _ _ _ hv]
      exact hs.bank_within
    · obtain ⟨hi, -⟩ := bankRead_eq_ok.mp (hist_of_ne_gag hv addr ▸ hh)
      rw [afterUpdate_bank_of_ne_gag _ _ _ _ _ hv]
      exact Cells.within_write hs.bank_within hi ((length_insertBit _ _).trans (length_hist hs hh))
  pht_wf := Cells.wf_write hs.pht_wf _ _
  pht_within := Cells.within_write hs.pht_within hk ((length_advance _ _).trans hs.ctr_width)
  ctr_width := hs.ctr_width
  paddr_width := hs.paddr_width

theorem inv_of_exec (hs : s.Inv) {i : Instr} {t : State} (hx : exec i s = .next t) : t.Inv := by
  obtain ⟨k, -, -, -, rfl⟩ | ⟨r, h, k, -, hh, -, hk, rfl⟩ := exec_cases hx
  · exact inv_afterPredict hs (exec_addr_length hx) k
  · exact inv_afterUpdate hs r hh hk

end

/-- Settles O52: the reset gives a construction's state (`inv_init`), and a command keeps the invariant
(`inv_of_exec`). -/
theorem stepKeepsTheInvariant : Obligations.StepKeepsTheInvariant := by
  intro s t hs h
  rcases step_eq_next h with ⟨-, rfl⟩ | ⟨rest, -, rfl⟩ | ⟨cw, rest, i, -, -, hx⟩
  · exact hs
  · exact inv_withInputs (inv_init hs.legal) rest
  · exact inv_of_exec (inv_withInputs hs rest) hx

/-- After any completed command the counter property holds, whatever held before: a PREDICT loads the cell, an UPDATE
leaves nothing pending. -/
theorem pendingCounter_of_exec {i : Instr} {s t : State} (hx : exec i s = .next t) : t.PendingCounter := by
  obtain ⟨k, -, hk, hlt, rfl⟩ | ⟨r, h, k, -, -, -, -, rfl⟩ := exec_cases hx
  · exact fun _ => ⟨⟨k, (key_congr rfl rfl rfl _).trans hk, phtRead_eq_ok.mpr ⟨hlt, rfl⟩⟩, rfl⟩
  · exact pendingCounter_of_pend_false rfl

/-- Settles O53: the reset leaves nothing pending, and after a command the property holds by `pendingCounter_of_exec`. -/
theorem stepKeepsThePendingCounter : Obligations.StepKeepsThePendingCounter := by
  intro s t hs h
  rcases step_eq_next h with ⟨-, rfl⟩ | ⟨rest, -, rfl⟩ | ⟨cw, rest, i, -, -, hx⟩
  · exact hs
  · exact pendingCounter_of_pend_false rfl
  · exact pendingCounter_of_exec hx

end Sys2Proof.Machine
end

section
/-! PROOFS. Every command the port can carry is read back from its word (spec/30_encoding.md R61, R66). -/

namespace Sys2Proof

theorem Instr.wf_iff {c : Config} {i : Instr} : i.wf c = true ↔ i.variant = c.variant ∧ i.addr.length = c.a := by
  simp [Instr.wf, Instr.ofVariant, Instr.addrFits]

/-- A command is determined by its variant, its address and, for an UPDATE, its outcome. -/
theorem Instr.eq_predictOf_or_updateOf (i : Instr) :
    i = predictOf i.variant i.addr ∨ ∃ r, i = updateOf i.variant i.addr r := by
  cases i
  case gagPredict | pagPredict | papPredict | pasPredict | sapPredict => exact .inl rfl
  case gagUpdate | pagUpdate | papUpdate | pasUpdate | sapUpdate => exact .inr ⟨_, rfl⟩

theorem encode_predictOf (v : Variant) (addr : Bits) : encode (predictOf v addr) = addr ++ predictTail := by
  cases v <;> rfl

theorem encode_updateOf (v : Variant) (addr : Bits) (r : BranchResult) :
    encode (updateOf v addr r) = addr ++ updateTail r := by
  cases v <;> rfl

@[simp] theorem dir_tbit (r : BranchResult) : dir (tbit r) = r := by
  cases r <;> rfl

theorem slice_append_pair (addr : Bits) (x y : Bit) : slice (addr ++ [x, y]) (addr.length + 1) 2 = addr := by
  simp [slice]

theorem bit_zero_append_pair (addr : Bits) (x y : Bit) : bit (addr ++ [x, y]) 0 = y := by
  simp [bit, elem]

theorem bit_one_append_pair (addr : Bits) (x y : Bit) : bit (addr ++ [x, y]) 1 = x := by
  simp [bit, elem]

/-- The decoder's reading of a word given as its three fields (R61). -/
theorem decode_append_pair {c : Config} {addr : Bits} (ha : addr.length = c.a) (x y : Bit) :
    decode c (addr ++ [x, y]) =
      .ok (if y then updateOf c.variant addr (dir x) else predictOf c.variant addr) := by
  have hlen : (addr ++ [x, y]).length = c.a + 2 := by simp [ha]
  simp only [decode, if_pos hlen]
  rw [← ha, slice_append_pair, bit_zero_append_pair, bit_one_append_pair]
  cases y <;> rfl

theorem decode_encode {c : Config} {i : Instr} (hi : i.wf c = true) : decode c (encode i) = .ok i := by
  obtain ⟨hv, ha⟩ := Instr.wf_iff.mp hi
  obtain hp | ⟨r, hu⟩ := i.eq_predictOf_or_updateOf
  · rw [hp, encode_predictOf, predictTail, decode_append_pair ha, hv]
    rfl
  · rw [hu, encode_updateOf, updateTail, decode_append_pair ha, hv, dir_tbit]
    rfl

end Sys2Proof
end

section
/-! PROOFS. Runs of commands as a relation, for induction over a run, and what a whole run leaves: the violation flag
(spec/10_state.md R27, spec/41_common_state_machine.md R101) and the histories (spec/10_state.md R21, R22). -/

namespace Sys2Proof.Machine

/-- The commands complete one after another, each presented alone (R170); `runOn_present_eq_next` ties it to `runOn`. -/
inductive Run : List Instr → State → State → Prop
  | nil (s : State) : Run [] s s
  | cons {i : Instr} {is : List Instr} {s u t : State} (hx : exec i (s.withInputs []) = .next u) (hrun : Run is u t) :
      Run (i :: is) s t

theorem stepOn_encode {i : Instr} {s : State} (hi : i.wf s.cfg = true) :
    stepOn (.command (encode i)) s = exec i (s.withInputs []) := by
  have hport : readPort (s.withInputs [.command (encode i)]) (encode i) = .ok i := readPort_eq_ok.mpr (decode_encode hi)
  simp [stepOn, step, hport]

theorem runOn_present_eq_next {is : List Instr} {s t : State} (hfit : allFit s.cfg is = true) :
    runOn (present is) s = .next t ↔ Run is s t := by
  induction is generalizing s with
  | nil =>
    constructor
    · rintro ⟨⟩
      exact .nil _
    · rintro ⟨⟩
      rfl
  | cons i is ih =>
    obtain ⟨hi, his⟩ : i.wf s.cfg = true ∧ allFit s.cfg is = true := by simpa [allFit] using hfit
    have hrun : runOn (present (i :: is)) s = .next t ↔
        ∃ u, exec i (s.withInputs []) = .next u ∧ runOn (present is) u = .next t := by
      simp only [present, List.map_cons, runOn, stepOn_encode hi]
      split <;> simp_all
    rw [hrun]
    constructor
    · rintro ⟨u, hx, hu⟩
      exact .cons hx ((ih (by rwa [exec_cfg hx])).mp hu)
    · rintro (_ | ⟨hx, hu⟩)
      exact ⟨_, hx, (ih (by rwa [exec_cfg hx])).mpr hu⟩

/-! ## The violation flag -/

@[simp] theorem protocol_withInputs (s : State) (xs : List Input) : (s.withInputs xs).protocol = s.protocol := rfl

/-- The row of R101 for an UPDATE, read from the checker registers. -/
theorem arc_update (s : State) (addr : Bits) (r : BranchResult) :
    s.protocol.arc addr (some r) = (.idle, s.pend && decide (s.paddr = addr)) := by
  cases hp : s.pend <;> simp [State.protocol, hp, Protocol.arc, eq_comm]

/-- A completed command moves the checker along its arc of R101 and records an illegal one. -/
theorem exec_follows_arc {i : Instr} {s t : State} (hx : exec i s = .next t) :
    t.protocol = (s.protocol.arc i.addr i.actual).1 ∧
      t.pviol = (s.pviol || !(s.protocol.arc i.addr i.actual).2) := by
  obtain ⟨k, hi, -, -, rfl⟩ | ⟨r, h, k, hi, -, -, -, rfl⟩ := exec_cases hx
  · simp [hi, Protocol.arc, State.protocol]
  · rw [hi, arc_update]
    exact ⟨rfl, rfl⟩

theorem Run.pviol {is : List Instr} {s t : State} (hrun : Run is s t) :
    t.pviol = (s.pviol || !legalRun s.protocol is) := by
  induction hrun with
  | nil s => simp [legalRun]
  | cons hx _ ih =>
    obtain ⟨hprotocol, hpviol⟩ := exec_follows_arc hx
    rw [ih, hpviol, hprotocol]
    simp [legalRun, Bool.or_assoc]

/-- Settles O50, by induction over the run (`Run.pviol`). -/
theorem violationFlagRecordsTheRun : Obligations.ViolationFlagRecordsTheRun := by
  intro is s t hfit hrun
  rw [((runOn_present_eq_next hfit).mp hrun).pviol]
  simp

/-! ## The histories -/

theorem low_tail {u : Bits} {n : Nat} (h : n < u.length) : low u.tail n = low u n := by
  rw [low, low, List.length_tail, ← List.drop_one, List.drop_drop]
  congr 1
  omega

/-- A register shifted once for each of `bs` holds the last bits of its old content followed by `bs`. -/
theorem foldl_insertBit (r bs : Bits) : bs.foldl insertBit r = low (r ++ bs) r.length := by
  induction bs generalizing r with
  | nil => simp [low]
  | cons b bs ih =>
    have happend : insertBit r b ++ bs = (r ++ b :: bs).tail := by cases r <;> simp [insertBit]
    rw [List.foldl_cons, ih, length_insertBit, happend, low_tail (by simp)]

/-- The outcomes of a sequence shift in as those of its first command, then those of the rest. -/
theorem foldl_outcomes_cons (sel : Bits → Bool) (i : Instr) (is : List Instr) (r : Bits) :
    (outcomes sel (i :: is)).foldl insertBit r =
      (outcomes sel is).foldl insertBit ((outcomes sel [i]).foldl insertBit r) := by
  cases hi : i.actual with
  | none => simp [outcomes, hi]
  | some r => cases hsel : sel i.addr <;> simp [outcomes, hi, hsel]

theorem bankCell_afterUpdate {s : State} (hs : s.Inv) (hv : s.cfg.variant ≠ .gag) (addr : Bits) (r : BranchResult)
    (h k : Bits) (j : Nat) : (afterUpdate s addr r h k).bankCell j =
      if val (bankidx s.cfg addr) = j then insertBit h (tbit r) else s.bankCell j := by
  rw [State.bankCell, afterUpdate_bank_of_ne_gag _ _ _ _ _ hv, afterUpdate_cfg]
  split
  · subst j
    exact Cells.read_write_same hs.bank_wf.1 _ _
  · exact Cells.read_write_ne _ _ (Ne.symm ‹_›)

/-- In GAg every UPDATE shifts its outcome into `BHR`, and nothing else does. -/
theorem exec_bhr_of_gag {i : Instr} {s t : State} (hv : s.cfg.variant = .gag) (hx : exec i s = .next t) :
    t.bhr = (outcomes (fun _ => true) [i]).foldl insertBit s.bhr := by
  obtain ⟨k, hi, -, -, rfl⟩ | ⟨r, h, k, hi, hh, -, -, rfl⟩ := exec_cases hx
  · simp [outcomes, hi]
  · obtain rfl : s.bhr = h := by simpa [hist_of_gag hv] using hh
    simp [outcomes, hi, afterUpdate_bhr_of_gag _ _ _ _ _ hv]

/-- In the bank variants an UPDATE shifts its outcome into the entry it selects, and nothing else changes an entry. -/
theorem exec_bankCell {i : Instr} {s t : State} (hs : s.Inv) (hv : s.cfg.variant ≠ .gag) (hx : exec i s = .next t)
    (j : Nat) :
    t.bankCell j = (outcomes (fun a => val (bankidx s.cfg a) == j) [i]).foldl insertBit (s.bankCell j) := by
  obtain ⟨k, hi, -, -, rfl⟩ | ⟨r, h, k, hi, hh, -, -, rfl⟩ := exec_cases hx
  · simp only [outcomes, hi]
    rfl
  · obtain ⟨-, rfl⟩ := bankRead_eq_ok.mp (hist_of_ne_gag hv _ ▸ hh)
    rw [bankCell_afterUpdate hs hv]
    by_cases hj : val (bankidx s.cfg i.addr) = j <;> simp [outcomes, hi, hj]

theorem Run.bhr_of_gag {is : List Instr} {s t : State} (hrun : Run is s t) (hv : s.cfg.variant = .gag) :
    t.bhr = (outcomes (fun _ => true) is).foldl insertBit s.bhr := by
  induction hrun with
  | nil s => rfl
  | @cons i is s u t hx _ ih =>
    have hcfg : u.cfg = s.cfg := by simpa using exec_cfg hx
    rw [ih (by rwa [hcfg]), exec_bhr_of_gag (s := s.withInputs []) hv hx, ← foldl_outcomes_cons,
      State.withInputs_bhr]

theorem Run.bankCell {is : List Instr} {s t : State} (hrun : Run is s t) (hs : s.Inv) (hv : s.cfg.variant ≠ .gag)
    (j : Nat) : t.bankCell j =
      (outcomes (fun a => val (bankidx s.cfg a) == j) is).foldl insertBit (s.bankCell j) := by
  induction hrun with
  | nil s => rfl
  | @cons i is s u t hx _ ih =>
    have hcfg : u.cfg = s.cfg := by simpa using exec_cfg hx
    have hs' := inv_withInputs hs []
    rw [ih (inv_of_exec hs' hx) (by rwa [hcfg]), exec_bankCell hs' hv hx, hcfg, State.withInputs_cfg,
      ← foldl_outcomes_cons, bankCell_withInputs]

/-- Settles O57: over the run each register is shifted by the outcomes that select it, from the zeros of the construction,
and the shifts keep its last `W` bits (`foldl_insertBit`). -/
theorem historyHoldsTheLastOutcomes : Obligations.HistoryHoldsTheLastOutcomes := by
  intro p s t is hconstruct hfit hrunOn
  have hrun := (runOn_present_eq_next hfit).mp hrunOn
  obtain ⟨-, -, -, -, -, -, hbhr, hbank, -⟩ := constructedInstanceIsZero p s hconstruct
  obtain ⟨-, -, hinv⟩ := constructedInstanceHasTheInvariants
  obtain ⟨hs, -⟩ := hinv p s hconstruct
  refine ⟨fun hv => ?_, fun hv j hj => ?_⟩
  · rw [hrun.bhr_of_gag hv, foldl_insertBit, hbhr hv, length_zeros]
  · rw [hrun.bankCell hs hv, foldl_insertBit, hbank j hj, length_zeros]

end Sys2Proof.Machine
end

section
/-! PROOFS. In a state with the invariant every UPDATE completes, and it shifts the history of exactly the addresses that
select the same register (spec/10_state.md R22, spec/42_gag.md R117, spec/46_sap.md R137). -/

namespace Sys2Proof

theorem Config.bankEntries_of_ne_gag {c : Config} (hv : c.variant ≠ .gag) : c.bankEntries = 2 ^ c.bankIndexWidth := by
  cases hc : c.variant <;> simp_all [Config.bankEntries]

@[simp] theorem addr_updateOf (v : Variant) (addr : Bits) (r : BranchResult) : (updateOf v addr r).addr = addr := by
  cases v <;> rfl

@[simp] theorem actual_updateOf (v : Variant) (addr : Bits) (r : BranchResult) : (updateOf v addr r).actual = some r := by
  cases v <;> rfl

namespace Machine

theorem length_bankidx {c : Config} {addr : Bits} (hc : c.legal = true) (ha : addr.length = c.a) :
    (bankidx c addr).length = c.bankIndexWidth := by
  obtain ⟨-, -, -, -, hib⟩ := Config.legal_iff.mp hc
  cases hv : c.variant
  case gag => simp [bankidx, Config.bankIndexWidth, hv]
  case sap => simp [bankidx, Config.bankIndexWidth, hv]
  case pag | pap | pas =>
    have hle : c.ib ≤ addr.length := ha ▸ (hib (by rw [hv]; rfl)).2
    simp [bankidx, Config.bankIndexWidth, hv, length_low hle]

theorem length_keyTag {c : Config} {addr : Bits} (ha : addr.length = c.a) : (keyTag c addr).length = c.tagWidth := by
  cases hv : c.variant <;> simp [keyTag, Config.tagWidth, hv, ha]

theorem bankidx_eq_of_gag {c : Config} (hv : c.variant = .gag) (a b : Bits) : bankidx c a = bankidx c b := by
  simp [bankidx, hv]

section
variable {s : State}

theorem val_bankidx_lt (hs : s.Inv) (hv : s.cfg.variant ≠ .gag) {addr : Bits} (ha : addr.length = s.cfg.a) :
    val (bankidx s.cfg addr) < s.cfg.bankEntries := by
  rw [Config.bankEntries_of_ne_gag hv, ← length_bankidx hs.legal ha]
  exact val_lt_two_pow _

theorem exists_hist_eq_ok (hs : s.Inv) {addr : Bits} (ha : addr.length = s.cfg.a) : ∃ h, hist s addr = .ok h := by
  by_cases hv : s.cfg.variant = .gag
  · exact ⟨_, hist_of_gag hv addr⟩
  · exact ⟨_, (hist_of_ne_gag hv addr).trans (bankRead_eq_ok.mpr ⟨val_bankidx_lt hs hv ha, rfl⟩)⟩

/-- The tag and the history together number a cell of the PHT (R104). -/
theorem val_tag_append_hist_lt (hs : s.Inv) {addr h : Bits} (ha : addr.length = s.cfg.a) (hh : hist s addr = .ok h) :
    val (keyTag s.cfg addr ++ h) < s.cfg.phtEntries := by
  have hlen : (keyTag s.cfg addr ++ h).length = s.cfg.keyWidth := by
    rw [List.length_append, length_keyTag ha, length_hist hs hh, Config.keyWidth]
  rw [Config.phtEntries, ← hlen]
  exact val_lt_two_pow _

theorem exec_updateOf (hs : s.Inv) {addr h : Bits} (ha : addr.length = s.cfg.a) (hh : hist s addr = .ok h)
    (r : BranchResult) :
    exec (updateOf s.cfg.variant addr r) s = .next (afterUpdate s addr r h (keyTag s.cfg addr ++ h)) := by
  rw [exec_update_eq_next (actual_updateOf _ _ _), variant_updateOf, addr_updateOf]
  exact ⟨rfl, ha, hs.paddr_width, h, _, hh, key_eq_ok.mpr ⟨h, hh, rfl⟩, val_tag_append_hist_lt hs ha hh,
    fun _ => length_hist hs hh, rfl⟩

theorem hist_eq_of_bankidx_eq {a b : Bits} (hidx : bankidx s.cfg a = bankidx s.cfg b) : hist s a = hist s b := by
  by_cases hv : s.cfg.variant = .gag
  · rw [hist_of_gag hv, hist_of_gag hv]
  · rw [hist_of_ne_gag hv, hist_of_ne_gag hv, hidx]

theorem hist_afterUpdate_of_bankidx_eq (hs : s.Inv) {a b : Bits} (hb : b.length = s.cfg.a)
    (hidx : bankidx s.cfg a = bankidx s.cfg b) (r : BranchResult) (h k : Bits) :
    hist (afterUpdate s a r h k) b = .ok (insertBit h (tbit r)) := by
  by_cases hv : s.cfg.variant = .gag
  · rw [hist_of_gag (s := afterUpdate s a r h k) hv, afterUpdate_bhr_of_gag _ _ _ _ _ hv]
  · rw [hist_of_ne_gag (s := afterUpdate s a r h k) hv, bankRead_eq_ok]
    exact ⟨val_bankidx_lt hs hv hb, by rw [bankCell_afterUpdate hs hv, hidx, afterUpdate_cfg, if_pos rfl]⟩

theorem hist_afterUpdate_of_bankidx_ne (hs : s.Inv) {a b : Bits} (ha : a.length = s.cfg.a) (hb : b.length = s.cfg.a)
    (hidx : bankidx s.cfg a ≠ bankidx s.cfg b) (r : BranchResult) (h k : Bits) :
    hist (afterUpdate s a r h k) b = hist s b := by
  have hv : s.cfg.variant ≠ .gag := fun hv => hidx (bankidx_eq_of_gag hv a b)
  have hval : val (bankidx s.cfg a) ≠ val (bankidx s.cfg b) := fun heq =>
    hidx (eq_of_val_eq ((length_bankidx hs.legal ha).trans (length_bankidx hs.legal hb).symm) heq)
  rw [hist_of_ne_gag hv, hist_of_ne_gag (s := afterUpdate s a r h k) hv, bankRead, bankRead,
    bankCell_afterUpdate hs hv, afterUpdate_cfg, if_neg hval]

end

/-- Settles O47: the UPDATE completes by `exec_updateOf`; the two clauses are the two lemmas on `hist` after it. -/
theorem updateShiftsTheSelectedHistory : Obligations.UpdateShiftsTheSelectedHistory := by
  intro s a b r hs ha hb
  obtain ⟨g, hg⟩ := exists_hist_eq_ok hs ha
  obtain ⟨h, hh⟩ := exists_hist_eq_ok hs hb
  refine ⟨_, h, exec_updateOf hs ha hg r, hh, fun hidx => ?_, fun hidx => ?_⟩
  · have hgh : g = h := by simpa [hg, hh] using hist_eq_of_bankidx_eq hidx
    rw [hist_afterUpdate_of_bankidx_eq hs hb hidx, hgh]
  · rw [hist_afterUpdate_of_bankidx_ne hs ha hb hidx, hh]

end Machine

end Sys2Proof
end

section
/-! PROOFS. A command neither reads the caller's sequence nor changes it, so that a step is its first input applied alone,
errors included, and a run of the machine is the run of what is presented (spec/20_memory.md R48, spec/70_reset_and_hazards.md
R170). -/

namespace Sys2Proof.Machine

/-- The outcome with `xs` in place of the caller's sequence; an error stays what it is. -/
def presenting (xs : List Input) : Host.Outcome State Fault Refusal → Host.Outcome State Fault Refusal
  | .next t => .next (t.withInputs xs)
  | .fault f => .fault f
  | .refused r => .refused r

/-! ## The primitives and the shared halves carry the sequence along -/

section
variable (s : State) (xs : List Input)

theorem bankRead_withInputs (i : Bits) : bankRead (s.withInputs xs) i = bankRead s i := rfl

theorem phtRead_withInputs (k : Bits) : phtRead (s.withInputs xs) k = phtRead s k := rfl

theorem bankWrite_withInputs (i v : Bits) :
    bankWrite (s.withInputs xs) i v = (·.withInputs xs) <$> bankWrite s i v := by
  simp only [bankWrite, apply_ite (Functor.map (State.withInputs · xs))]
  rfl

theorem phtWrite_withInputs (k v : Bits) :
    phtWrite (s.withInputs xs) k v = (·.withInputs xs) <$> phtWrite s k v := by
  simp only [phtWrite, apply_ite (Functor.map (State.withInputs · xs))]
  rfl

theorem noteUpdate_withInputs (addr : Bits) :
    noteUpdate addr (s.withInputs xs) = (·.withInputs xs) <$> noteUpdate addr s := by
  simp only [noteUpdate, State.withInputs_paddr, State.withInputs_pend]
  cases compareBits s.paddr addr with
  | error f => rfl
  | ok same => cases hlegal : s.pend && same <;> simp only [hlegal] <;> rfl

theorem predictAt_withInputs (k addr : Bits) :
    predictAt k addr (s.withInputs xs) = (·.withInputs xs) <$> predictAt k addr s := by
  simp only [predictAt, phtRead_withInputs, State.withInputs_ctr, map_bind, map_pure]
  rfl

theorem trainAt_withInputs (k : Bits) (r : BranchResult) :
    trainAt k r (s.withInputs xs) = (·.withInputs xs) <$> trainAt k r s :=
  phtWrite_withInputs s xs k _

theorem shiftBank_withInputs (i h : Bits) (r : BranchResult) :
    shiftBank i h r (s.withInputs xs) = (·.withInputs xs) <$> shiftBank i h r s :=
  bankWrite_withInputs s xs i _

theorem shiftBhr_withInputs (h : Bits) (r : BranchResult) :
    shiftBhr h r (s.withInputs xs) = (shiftBhr h r s).withInputs xs := rfl

theorem noAnswer_withInputs : noAnswer (s.withInputs xs) = (noAnswer s).withInputs xs := rfl

theorem finish_withInputs (x : Except Fault State) :
    finish ((·.withInputs xs) <$> x) = presenting xs (finish x) := by
  cases x <;> rfl

theorem atPort_withInputs (v : Variant) (addr : Bits) (x : Except Fault State) :
    atPort v addr (s.withInputs xs) ((·.withInputs xs) <$> x) = presenting xs (atPort v addr s x) := by
  simp only [atPort, finish_withInputs, apply_ite (presenting xs)]
  rfl

/-- A command neither reads nor changes the sequence: with `xs` presented its outcome is the same, `xs` apart. -/
theorem exec_withInputs (i : Instr) : exec i (s.withInputs xs) = presenting xs (exec i s) := by
  cases i
  case gagPredict | pagPredict | papPredict | pasPredict | sapPredict =>
    simp only [exec, execGagPredict, execPagPredict, execPapPredict, execPasPredict, execSapPredict,
      ← atPort_withInputs, map_bind, State.withInputs_cfg, State.withInputs_bhr, bankRead_withInputs,
      predictAt_withInputs]
  case gagUpdate =>
    simp only [exec, execGagUpdate, ← atPort_withInputs, map_bind, map_pure, bind_map_left, State.withInputs_bhr,
      noteUpdate_withInputs, trainAt_withInputs, shiftBhr_withInputs, noAnswer_withInputs]
  case pagUpdate | papUpdate | pasUpdate | sapUpdate =>
    simp only [exec, execPagUpdate, execPapUpdate, execPasUpdate, execSapUpdate, ← atPort_withInputs, map_bind,
      map_pure, bind_map_left, State.withInputs_cfg, noteUpdate_withInputs, bankRead_withInputs, trainAt_withInputs,
      shiftBank_withInputs, noAnswer_withInputs]

end

/-! ## Steps -/

/-- Settles O7: the port reads the command that the word decodes to (`readPort_eq_ok`). -/
theorem stepRunsTheDecodedCommand : Obligations.StepRunsTheDecodedCommand := by
  intro s cw rest i hin hdecode
  simp only [step, hin, readPort_eq_ok.mpr hdecode]

theorem step_withInputs_cons (x : Input) (xs : List Input) (s : State) :
    step (s.withInputs (x :: xs)) = presenting xs (stepOn x s) := by
  cases x with
  | reset => rfl
  | command cw =>
    have hport (ys : List Input) : readPort (s.withInputs ys) cw = readPort s cw := rfl
    simp only [stepOn, step, State.withInputs_inputs, hport]
    cases readPort s cw with
    | error f => rfl
    | ok i => exact exec_withInputs (s.withInputs []) xs i

/-- An input presented alone is taken. -/
theorem stepOn_inputs {x : Input} {s t : State} (h : stepOn x s = .next t) : t.inputs = [] := by
  have hself : stepOn x s = presenting [] (stepOn x s) := step_withInputs_cons x [] s
  rw [h, presenting, Host.Outcome.next.injEq] at hself
  rw [hself, State.withInputs_inputs]

/-- Settles O59, by induction on the sequence: the first step is the first input's alone (`step_withInputs_cons`), and
it leaves a state with nothing of its own presented (`stepOn_inputs`). -/
theorem queuedInputsRunOneAfterAnother : Obligations.QueuedInputsRunOneAfterAnother := by
  intro xs
  induction xs with
  | nil =>
    intro s hin
    exact congrArg Host.Outcome.next (hin ▸ s.withInputs_self)
  | cons x xs ih =>
    intro s _
    have hstep : Sys2Proof.core.step (s.withInputs (x :: xs)) = presenting xs (stepOn x s) :=
      step_withInputs_cons x xs s
    simp only [List.length_cons, Host.Core.run, hstep, runOn]
    cases hx : stepOn x s with
    | next t => exact ih t (stepOn_inputs hx)
    | fault f => rfl
    | refused r => rfl

end Sys2Proof.Machine
end

section
/-! PROOFS. What an UPDATE leaves unchanged (spec/41_common_state_machine.md R106, R107). -/

namespace Sys2Proof.Machine

section
variable (s : State) (addr : Bits) (r : BranchResult) (h k : Bits)

theorem phtCell_afterUpdate_ne {j : Nat} (hj : j ≠ val k) : (afterUpdate s addr r h k).phtCell j = s.phtCell j :=
  Cells.read_write_ne _ _ hj

/-- The UPDATE of a bank variant writes the one entry its address selects, GAg's writes none. -/
theorem bankCell_afterUpdate_ne {j : Nat} (hj : s.cfg.variant = .gag ∨ j ≠ val (bankidx s.cfg addr)) :
    (afterUpdate s addr r h k).bankCell j = s.bankCell j := by
  rw [State.bankCell, afterUpdate_cfg, State.bankCell]
  by_cases hv : s.cfg.variant = .gag
  · rw [afterUpdate_bank_of_gag _ _ _ _ _ hv]
  · rw [afterUpdate_bank_of_ne_gag _ _ _ _ _ hv]
    exact Cells.read_write_ne _ _ (hj.resolve_left hv)

end

/-- Settles O40: the UPDATE's state is `afterUpdate` at the key of the state before (`exec_update_eq_next`), whose two
writes reach one cell each. -/
theorem updateFrame : Obligations.UpdateFrame := by
  intro i s t r hi hx
  obtain ⟨-, -, -, h, k, -, hk, -, -, rfl⟩ := (exec_update_eq_next hi).mp hx
  refine ⟨fun k' hk' j hj => ?_, fun j hj => bankCell_afterUpdate_ne _ _ _ _ _ hj,
    afterUpdate_bhr_of_ne_gag _ _ _ _ _, rfl, rfl, rfl, rfl, rfl, exec_pviol_of_pviol hx⟩
  obtain rfl : k = k' := by simpa [hk] using hk'
  exact phtCell_afterUpdate_ne _ _ _ _ _ hj

end Sys2Proof.Machine
end

section
/-! PROOFS. The command word as its three fields: every word of `A + 2` bits is an address and two bits, and what the decoder
and the port make of it (spec/30_encoding.md R61, R64, R66 to R68). -/

namespace Sys2Proof

/-- Settles O1, by `decode_encode`. -/
theorem encodedCommandDecodesBack : Obligations.EncodedCommandDecodesBack :=
  fun _ _ => decode_encode

@[simp] theorem addr_predictOf (v : Variant) (addr : Bits) : (predictOf v addr).addr = addr := by
  cases v <;> rfl

@[simp] theorem actual_predictOf (v : Variant) (addr : Bits) : (predictOf v addr).actual = none := by
  cases v <;> rfl

theorem wf_predictOf {c : Config} {addr : Bits} (ha : addr.length = c.a) : (predictOf c.variant addr).wf c = true := by
  simp [Instr.wf_iff, ha]

theorem wf_updateOf {c : Config} {addr : Bits} (ha : addr.length = c.a) (r : BranchResult) :
    (updateOf c.variant addr r).wf c = true := by
  simp [Instr.wf_iff, ha]

/-- A word of the port's length falls into an address of `A` bits, `CW[1]` and `CW[0]`. -/
theorem eq_append_pair_of_length {cw : Bits} {n : Nat} (h : cw.length = n + 2) :
    ∃ (addr : Bits) (x y : Bit), addr.length = n ∧ cw = addr ++ [x, y] := by
  have htail : (cw.drop n).length = 2 := by rw [List.length_drop, h, Nat.add_sub_cancel_left]
  obtain ⟨x, y, hxy⟩ := List.length_eq_two.mp htail
  refine ⟨cw.take n, x, y, List.length_take_of_le (by omega), ?_⟩
  rw [← hxy, List.take_append_drop]

theorem val_append_pair (addr : Bits) (x y : Bit) :
    val (addr ++ [x, y]) = val addr * 4 + x.toNat * 2 + y.toNat := by
  simp [val_append, val, Nat.add_assoc]

theorem bit_add_two_append_pair (addr : Bits) (x y : Bit) (b : Nat) : bit (addr ++ [x, y]) (b + 2) = bit addr b := by
  have hval : val (addr ++ [x, y]) / 2 ^ 2 = val addr := by
    have hx := x.toNat_le
    have hy := y.toNat_le
    rw [val_append_pair]
    omega
  rw [bit_eq_testBit_val, bit_eq_testBit_val, ← hval, Nat.testBit_div_two_pow]

/-- Settles O2: the address is the word without its last two bits (`eq_append_pair_of_length`). -/
theorem commandWordFields : Obligations.CommandWordFields := by
  intro c cw hlen
  obtain ⟨addr, x, y, ha, rfl⟩ := eq_append_pair_of_length hlen
  rw [bit_zero_append_pair, bit_one_append_pair, decode_append_pair ha]
  refine ⟨addr, ha, fun b _ => (bit_add_two_append_pair addr x y b).symm, val_append_pair addr x y, ?_, ?_⟩
  · rintro rfl
    rfl
  · rintro rfl
    cases x <;> rfl

theorem decode_of_length_ne {c : Config} {cw : Bits} (h : cw.length ≠ c.a + 2) : decode c cw = .error .wrongLength :=
  if_neg h

/-- Settles O3: the last bit of the word decides between the UPDATE and the PREDICT of its address. -/
theorem everyPortWordIsOneCommand : Obligations.EveryPortWordIsOneCommand := by
  intro c cw
  refine ⟨fun hlen => ?_, decode_of_length_ne⟩
  obtain ⟨addr, x, y, ha, rfl⟩ := eq_append_pair_of_length hlen
  rw [bit_zero_append_pair]
  refine ⟨_, decode_append_pair ha x y, ?_⟩
  cases y with
  | false => exact ⟨wf_predictOf ha, by simp⟩
  | true => exact ⟨wf_updateOf ha _, by simp⟩

/-- Settles O5: each word is its address and two bits, read by `decode_append_pair`. -/
theorem sampleWordsDecode : Obligations.SampleWordsDecode := by
  refine ⟨?_, ?_, ?_, ?_, ?_, ?_, ?_, ?_, ?_, ?_⟩
  · exact decode_append_pair (addr := [true, false, true, true]) rfl false false
  · exact decode_append_pair (addr := [true, false, true, true]) rfl false true
  · exact decode_append_pair (addr := [true, false]) rfl false false
  · exact decode_append_pair (addr := [false, true]) rfl true true
  · exact decode_append_pair (addr := [true, true]) rfl false false
  · exact decode_append_pair (addr := [true, true]) rfl true true
  · exact decode_append_pair (addr := [true, false, false, true]) rfl false false
  · exact decode_append_pair (addr := [false, false, true, true]) rfl true true
  · exact decode_append_pair (addr := [false, true, false, true]) rfl false false
  · exact decode_append_pair (addr := [false, false, true, true]) rfl false true

theorem Variant.ofStrap_of_reserved {b : BitVec 3} (h : 5 ≤ b.toNat) : Variant.ofStrap b = none := by
  have hne (n : BitVec 3) (hn : n.toNat < 5) : b ≠ n := fun heq => absurd (heq ▸ h) (Nat.not_le.mpr hn)
  simp [Variant.ofStrap, hne]

namespace Machine

theorem construct_of_reserved {p : Straps} (h : 5 ≤ p.variant.toNat) :
    construct p = .error .configurationError := by
  simp [construct, Variant.ofStrap_of_reserved h]

/-- Settles O6: the five values by the table itself, the reserved ones by `construct_of_reserved`, and a step keeps the
straps whole. -/
theorem variantStrapValues : Obligations.VariantStrapValues :=
  ⟨rfl, rfl, rfl, rfl, rfl, fun _ => construct_of_reserved,
    fun s t h => congrArg Config.variant (configurationNeverChanges s t h)⟩

/-- A PREDICT word makes the PREDICT of its address, whatever `CW[1]` is. -/
theorem step_predict_word (s : State) {addr : Bits} (ha : addr.length = s.cfg.a) (b : Bit) (rest : List Input) :
    step (s.withInputs (.command (addr ++ [b, false]) :: rest)) =
      exec (predictOf s.cfg.variant addr) (s.withInputs rest) :=
  stepRunsTheDecodedCommand _ _ rest _ rfl (decode_append_pair ha b false)

/-- Settles O4: both words make the step of `step_predict_word`. -/
theorem predictIgnoresActualBit : Obligations.PredictIgnoresActualBit := by
  intro s addr b b' rest ha
  rw [step_predict_word s ha b, step_predict_word s ha b']

end Machine

end Sys2Proof
end

section
/-! PROOFS. A `K` or `IB` that the variant does not take is read by no rule: what a command reads of the configuration is
the same with any other value in its place (spec/30_encoding.md R65). -/

namespace Sys2Proof

/-- The two records agree in everything that a command reads of its configuration. -/
structure Config.SameForCommands (c d : Config) : Prop where
  variant : d.variant = c.variant
  w : d.w = c.w
  s : d.s = c.s
  a : d.a = c.a
  bankEntries : d.bankEntries = c.bankEntries
  phtEntries : d.phtEntries = c.phtEntries
  bankidx : ∀ addr, Machine.bankidx d addr = Machine.bankidx c addr
  keyTag : ∀ addr, Machine.keyTag d addr = Machine.keyTag c addr

theorem Config.sameForCommands_of_untaken_k {c : Config} (h : c.variant.takesK = false) (n : Nat) :
    c.SameForCommands { c with k := n } := by
  obtain ⟨v, w, s, a, k, ib⟩ := c
  cases v
  case gag | pag | pap => exact ⟨rfl, rfl, rfl, rfl, rfl, rfl, fun _ => rfl, fun _ => rfl⟩
  case pas | sap => cases h

theorem Config.sameForCommands_of_untaken_ib {c : Config} (h : c.variant.takesIB = false) (n : Nat) :
    c.SameForCommands { c with ib := n } := by
  obtain ⟨v, w, s, a, k, ib⟩ := c
  cases v
  case gag | sap => exact ⟨rfl, rfl, rfl, rfl, rfl, rfl, fun _ => rfl, fun _ => rfl⟩
  case pag | pap | pas => cases h

namespace Machine

section
variable {s : State} {c : Config} (hc : s.cfg.SameForCommands c)
include hc

theorem hist_of_sameForCommands (addr : Bits) : hist { s with cfg := c } addr = hist s addr := by
  simp only [hist, bankRead, State.bankCell, hc.variant, hc.w, hc.bankEntries, hc.bankidx]

theorem key_of_sameForCommands (addr : Bits) : key { s with cfg := c } addr = key s addr := by
  simp only [key, hist_of_sameForCommands hc, hc.keyTag]

theorem phtCell_of_sameForCommands (j : Nat) : State.phtCell { s with cfg := c } j = s.phtCell j := by
  simp only [State.phtCell, hc.s]

theorem afterPredict_of_sameForCommands (addr k : Bits) :
    afterPredict { s with cfg := c } addr k = { afterPredict s addr k with cfg := c } := by
  simp only [afterPredict, phtCell_of_sameForCommands hc]

theorem afterUpdate_of_sameForCommands (addr : Bits) (r : BranchResult) (h k : Bits) :
    afterUpdate { s with cfg := c } addr r h k = { afterUpdate s addr r h k with cfg := c } := by
  simp only [afterUpdate, violates, hc.variant, hc.w, hc.s, hc.bankidx]

/-- A command that completes under the state's own record completes under the other, with the same result. -/
theorem exec_of_sameForCommands {i : Instr} {t : State} (hx : exec i s = .next t) :
    exec i { s with cfg := c } = .next { t with cfg := c } := by
  cases hi : i.actual with
  | none =>
    obtain ⟨hv, ha, k, hk, hlt, hw, rfl⟩ := (exec_predict_eq_next hi).mp hx
    exact (exec_predict_eq_next hi).mpr ⟨hv.trans hc.variant.symm, ha.trans hc.a.symm, k,
      (key_of_sameForCommands hc _).trans hk, hlt.trans_eq hc.phtEntries.symm,
      (congrArg _ (phtCell_of_sameForCommands hc _)).trans hw, (afterPredict_of_sameForCommands hc _ _).symm⟩
  | some r =>
    obtain ⟨hv, ha, hp, h, k, hh, hk, hlt, hw, rfl⟩ := (exec_update_eq_next hi).mp hx
    exact (exec_update_eq_next hi).mpr ⟨hv.trans hc.variant.symm, ha.trans hc.a.symm, hp.trans hc.a.symm, h, k,
      (hist_of_sameForCommands hc _).trans hh, (key_of_sameForCommands hc _).trans hk,
      hlt.trans_eq hc.phtEntries.symm, fun hne => (hw fun hg => hne (hc.variant.trans hg)).trans hc.w.symm,
      (afterUpdate_of_sameForCommands hc _ _ _ _).symm⟩

end

/-- Settles O45: an untaken `K` or `IB` is nothing that a command reads. -/
theorem untakenParametersHaveNoEffect : Obligations.UntakenParametersHaveNoEffect := by
  intro i s t n hx
  exact ⟨fun hk => exec_of_sameForCommands (Config.sameForCommands_of_untaken_k hk n) hx,
    fun hib => exec_of_sameForCommands (Config.sameForCommands_of_untaken_ib hib n) hx⟩

end Machine

end Sys2Proof
end

section
/-! PROOFS. The assembler reads back the lines of R70 and R71: how a line falls into tokens, and what each token is read as
(spec/30_encoding.md R70, R71, assumption log 6). -/

namespace Sys2Proof.Machine

/-! ## Tokens -/

/-- A character that ends neither a token nor, as `;` does, the line. -/
def inToken (ch : Char) : Bool := ch != ' ' && ch != '\t' && ch != ',' && ch != ';'

theorem inToken_iff {ch : Char} : inToken ch = true ↔ ch ≠ ' ' ∧ ch ≠ '\t' ∧ ch ≠ ',' ∧ ch ≠ ';' := by
  simp [inToken, and_assoc]

/-- A text that is one token: not empty, and with nothing in it that ends a token. -/
def isWord (w : List Char) : Bool := !w.isEmpty && w.all inToken

theorem isWord_iff {w : List Char} : isWord w = true ↔ w ≠ [] ∧ ∀ ch ∈ w, inToken ch = true := by
  simp [isWord]

theorem tokensFrom_append (cur : List Char) {w : List Char} (hw : ∀ ch ∈ w, inToken ch = true) (rest : List Char) :
    tokensFrom cur (w ++ rest) = tokensFrom (cur ++ w) rest := by
  induction w generalizing cur with
  | nil => simp
  | cons ch w ih =>
    obtain ⟨hch, hw⟩ := List.forall_mem_cons.mp hw
    obtain ⟨hspace, htab, hcomma, -⟩ := inToken_iff.mp hch
    rw [List.cons_append, tokensFrom]
    simp [hspace, htab, hcomma, ih _ hw]

section
variable {w : List Char} (hw : isWord w = true)
include hw

theorem tokensFrom_word_append (rest : List Char) : tokensFrom [] (w ++ rest) = tokensFrom w rest := by
  obtain ⟨-, hin⟩ := isWord_iff.mp hw
  exact tokensFrom_append [] hin rest

theorem flush_word : flush w = [w] := by
  obtain ⟨hne, -⟩ := isWord_iff.mp hw
  simp [flush, hne]

theorem tokensFrom_word : tokensFrom [] w = [w] := by
  rw [← List.append_nil w, tokensFrom_word_append hw, tokensFrom, flush_word hw, List.append_nil]

theorem tokensFrom_word_space (rest : List Char) : tokensFrom [] (w ++ ' ' :: rest) = w :: tokensFrom [] rest := by
  rw [tokensFrom_word_append hw, tokensFrom]
  simp [flush_word hw]

theorem tokensFrom_word_comma (rest : List Char) :
    tokensFrom [] (w ++ ',' :: rest) = w :: [','] :: tokensFrom [] rest := by
  rw [tokensFrom_word_append hw, tokensFrom]
  simp [flush_word hw]

theorem semicolon_not_mem_word : ';' ∉ w := by
  obtain ⟨-, hin⟩ := isWord_iff.mp hw
  intro hmem
  obtain ⟨-, -, -, hne⟩ := inToken_iff.mp (hin _ hmem)
  exact hne rfl

end

theorem tokensFrom_space (rest : List Char) : tokensFrom [] (' ' :: rest) = tokensFrom [] rest := rfl

theorem stripComment_of_not_mem {line : List Char} (h : ';' ∉ line) : stripComment line = line := by
  rw [stripComment, List.takeWhile_eq_self_iff]
  intro ch hch
  have hne : ch ≠ ';' := fun heq => h (heq ▸ hch)
  simp [hne]

/-- The tokens of the form `<op> <addr>` (R70). -/
theorem tokens_two {op a : List Char} (hop : isWord op = true) (ha : isWord a = true) :
    tokens (op ++ ' ' :: a) = [op, a] := by
  have hline : ';' ∉ op ++ ' ' :: a := by simp [semicolon_not_mem_word hop, semicolon_not_mem_word ha]
  rw [tokens, stripComment_of_not_mem hline, tokensFrom_word_space hop, tokensFrom_word ha]

/-- The tokens of the form `<op> <addr>, <outcome>` (R70, R71). -/
theorem tokens_four {op a o : List Char} (hop : isWord op = true) (ha : isWord a = true) (ho : isWord o = true) :
    tokens (op ++ ' ' :: (a ++ ',' :: ' ' :: o)) = [op, a, [','], o] := by
  have hline : ';' ∉ op ++ ' ' :: (a ++ ',' :: ' ' :: o) := by
    simp [semicolon_not_mem_word hop, semicolon_not_mem_word ha, semicolon_not_mem_word ho]
  rw [tokens, stripComment_of_not_mem hline, tokensFrom_word_space hop, tokensFrom_word_comma ha, tokensFrom_space,
    tokensFrom_word ho]

/-! ## Fields -/

theorem inToken_digitChar (b : Bit) : inToken (digitChar b) = true := by
  cases b <;> decide

theorem binaryDigit_digitChar (b : Bit) : binaryDigit (digitChar b) = some b := by
  cases b <;> decide

theorem isWord_digits {addr : Bits} (h : addr ≠ []) : isWord (addr.map digitChar) = true :=
  isWord_iff.mpr ⟨by simpa using h, List.forall_mem_map.mpr fun b _ => inToken_digitChar b⟩

theorem binaryDigits_digits (addr : Bits) : binaryDigits (addr.map digitChar) = some addr := by
  induction addr with
  | nil => rfl
  | cons b addr ih => simp [binaryDigits, binaryDigit_digitChar, ih]

theorem b_not_mem_digits (addr : Bits) : 'b' ∉ addr.map digitChar := by
  have hb (b : Bit) : digitChar b ≠ 'b' := by cases b <;> decide
  simp [hb]

/-- Binary digits do not begin with a radix. -/
theorem dropRadix_digits (addr : Bits) : dropRadix (addr.map digitChar) = addr.map digitChar := by
  unfold dropRadix
  split
  · rename_i rest heq
    exact absurd (by simp [heq]) (b_not_mem_digits addr)
  · rfl

theorem parseAddr_digits {addr : Bits} {n : Nat} (h : addr.length = n) :
    parseAddr n (addr.map digitChar) = some addr := by
  simp [parseAddr, dropRadix_digits, binaryDigits_digits, h]

theorem isWord_outcomeText (r : BranchResult) : isWord (outcomeText r) = true := by
  cases r <;> decide

theorem parseOutcome_outcomeText (r : BranchResult) : parseOutcome (outcomeText r) = some r := by
  cases r <;> rfl

/-! ## Lines -/

section
variable {c : Config} {addr : Bits} (hpos : 1 ≤ c.a) (ha : addr.length = c.a)
include hpos ha

theorem isWord_address : isWord (addr.map digitChar) = true :=
  isWord_digits (List.ne_nil_of_length_pos (ha ▸ hpos))

theorem assembleLine_predict : assembleLine c (lineOf addr none) = some [predictOf c.variant addr] := by
  have htokens : tokens (lineOf addr none) = [['p', 'r', 'e', 'd', 'i', 'c', 't'], addr.map digitChar] :=
    tokens_two (op := ['p', 'r', 'e', 'd', 'i', 'c', 't']) (by decide) (isWord_address hpos ha)
  simp [assembleLine, htokens, parseAddr_digits ha]

/-- The lines that carry an outcome: the first token says whether they are an UPDATE or a transaction. -/
theorem assembleLine_with_outcome {op : List Char} (hop : isWord op = true) (r : BranchResult) :
    assembleLine c (op ++ ' ' :: (addr.map digitChar ++ ',' :: ' ' :: outcomeText r)) =
      if op = ['u', 'p', 'd', 'a', 't', 'e'] then some [updateOf c.variant addr r]
      else if op = ['b', 'r', 'a', 'n', 'c', 'h'] then some (branchOf c.variant addr r)
      else none := by
  simp [assembleLine, tokens_four hop (isWord_address hpos ha) (isWord_outcomeText r), parseAddr_digits ha,
    parseOutcome_outcomeText]

theorem assembleLine_update (r : BranchResult) :
    assembleLine c (lineOf addr (some r)) = some [updateOf c.variant addr r] := by
  simpa [lineOf] using assembleLine_with_outcome hpos ha (op := ['u', 'p', 'd', 'a', 't', 'e']) (by decide) r

theorem assembleLine_branch (r : BranchResult) :
    assembleLine c (['b', 'r', 'a', 'n', 'c', 'h', ' '] ++ addr.map digitChar ++ [',', ' '] ++ outcomeText r) =
      some [predictOf c.variant addr, updateOf c.variant addr r] := by
  simpa [branchOf] using assembleLine_with_outcome hpos ha (op := ['b', 'r', 'a', 'n', 'c', 'h']) (by decide) r

end

/-- Settles O60: a command is the PREDICT or the UPDATE of its address, and each of the three forms of line has its
lemma. -/
theorem assemblerReadsEveryCommand : Obligations.AssemblerReadsEveryCommand := by
  refine ⟨fun c i hpos hi => ?_, fun c addr r hpos ha => assembleLine_branch hpos ha r⟩
  obtain ⟨hv, ha⟩ := Instr.wf_iff.mp hi
  obtain hp | ⟨r, hu⟩ := i.eq_predictOf_or_updateOf
  · rw [hp, addr_predictOf, actual_predictOf, assembleLine_predict hpos ha, hv]
  · rw [hu, addr_updateOf, actual_updateOf, assembleLine_update hpos ha, hv]

end Sys2Proof.Machine
end

section
/-! PROOFS. The shift register and the saturating counter, in elements and in values (spec/40_primitives.md R83, R91,
R92). -/

namespace Sys2Proof

@[simp] theorem val_zeros (n : Nat) : val (zeros n) = 0 := by
  induction n with
  | zero => rfl
  | succ n ih =>
    rw [zeros, List.replicate_succ, val, ← zeros, ih]
    simp

namespace Machine

theorem insertBit_cons (x : Bit) (v : Bits) (b : Bit) : insertBit (x :: v) b = v ++ [b] := rfl

theorem elem_insertBit_of_lt {r : Bits} {e : Nat} (b : Bit) (h : e + 1 < r.length) :
    elem (insertBit r b) e = elem r (e + 1) := by
  cases r with
  | nil => simp at h
  | cons x v => simp [insertBit_cons, elem, List.getElem?_append_left (Nat.lt_of_succ_lt_succ h)]

theorem elem_insertBit_last {r : Bits} (b : Bit) (h : r ≠ []) : elem (insertBit r b) (r.length - 1) = b := by
  cases r with
  | nil => exact absurd rfl h
  | cons x v => simp [insertBit_cons, elem]

/-- The lost first element is what leaves the range `[0, 2^n − 1]`. -/
theorem val_insertBit {r : Bits} (b : Bit) (h : r ≠ []) :
    val (insertBit r b) = (2 * val r + b.toNat) % 2 ^ r.length := by
  cases r with
  | nil => exact absurd rfl h
  | cons x v =>
    have hlt : val (v ++ [b]) < 2 ^ (v.length + 1) := by simpa using val_lt_two_pow (v ++ [b])
    have hsum : 2 * val (x :: v) + b.toNat = val (v ++ [b]) + 2 ^ (v.length + 1) * x.toNat := by
      simp only [val_append, val, List.length_singleton, List.length_nil, Nat.pow_succ]
      ring
    rw [insertBit_cons, hsum, List.length_cons, Nat.add_mul_mod_self_left, Nat.mod_eq_of_lt hlt]

/-- Settles O16: a register of `n` bits after `n` inserts is the low `n` bits of what it held and what was inserted. -/
theorem insertShiftsLeft : Obligations.InsertShiftsLeft := by
  refine fun r b hr => ⟨length_insertBit r b, fun e he => elem_insertBit_of_lt b he, elem_insertBit_last b hr,
    val_insertBit b hr, fun bs hbs => ?_⟩
  simp [foldl_insertBit, low, hbs]

theorem val_advance_true (c : Bits) : val (advance c true) = min (val c + 1) (2 ^ c.length - 1) := by
  have hpos := Nat.two_pow_pos c.length
  rw [advance, if_pos rfl, val_bitsOf_of_lt (by omega)]

theorem val_advance_false (c : Bits) : val (advance c false) = val c - 1 := by
  have hlt := val_lt_two_pow c
  rw [advance, if_neg Bool.false_ne_true, val_bitsOf_of_lt (by omega)]

/-- Settles O19: the values in natural numbers, read as integers. -/
theorem advanceClamps : Obligations.AdvanceClamps := by
  refine fun c => ⟨length_advance c true, length_advance c false, ?_, ?_⟩
  · have hpow : ((2 ^ c.length - 1 : Nat) : Int) = 2 ^ c.length - 1 := by simp [Nat.one_le_two_pow]
    rw [val_advance_true, ← hpow]
    omega
  · rw [val_advance_false]
    omega

theorem direction_eq_taken_iff_elem (c : Bits) : direction c = .taken ↔ elem c 0 = true := by
  rw [direction, msb]
  cases elem c 0 <;> simp [dir]

/-- The first element is 1 exactly in the upper half of the values. -/
theorem direction_eq_taken_iff_val {c : Bits} (h : c ≠ []) :
    direction c = .taken ↔ 2 ^ (c.length - 1) ≤ val c := by
  rw [direction_eq_taken_iff_elem]
  cases c with
  | nil => exact absurd rfl h
  | cons x v =>
    have hlt := val_lt_two_pow v
    cases x
    · simpa [elem, val] using hlt
    · simp [elem, val]

theorem length_iterate_advance_true (c : Bits) (m : Nat) : ((fun c => advance c true)^[m] c).length = c.length := by
  induction m with
  | zero => rfl
  | succ m ih => rw [Function.iterate_succ_apply', length_advance, ih]

theorem val_iterate_advance_true (n m : Nat) :
    val ((fun c => advance c true)^[m] (zeros n)) = min m (2 ^ n - 1) := by
  induction m with
  | zero => simp
  | succ m ih =>
    rw [Function.iterate_succ_apply', val_advance_true, ih, length_iterate_advance_true, length_zeros]
    omega

/-- Settles O20: after `m` steps from zero the value is `m` as far as the clamp allows, and the clamp lies in the upper
half. -/
theorem counterDirection : Obligations.CounterDirection := by
  refine ⟨fun c hc => ⟨direction_eq_taken_iff_elem c, direction_eq_taken_iff_val hc⟩, fun n m hn => ?_⟩
  have hlen : ((fun c => advance c true)^[m] (zeros n)).length = n := by simp [length_iterate_advance_true]
  have hhalf : 2 ^ n = 2 * 2 ^ (n - 1) := by rw [← Nat.pow_succ', Nat.succ_eq_add_one, Nat.sub_add_cancel hn]
  have hpos := Nat.two_pow_pos (n - 1)
  rw [direction_eq_taken_iff_val (List.ne_nil_of_length_pos (hlen.symm ▸ hn)), hlen, val_iterate_advance_true]
  omega

end Machine

end Sys2Proof
end

section
/-! PROOFS. A read after a write of the register bank and of the history table, and the errors of their accesses
(spec/40_primitives.md R82, R85, R86, R88, R89). -/

namespace Sys2Proof.Machine

theorem loadReg_of_length {r v : Bits} (h : v.length = r.length) : loadReg r v = .ok v := if_pos h

theorem loadReg_of_length_ne {r v : Bits} (h : v.length ≠ r.length) : loadReg r v = .error .widthMismatch := if_neg h

section
variable {s : State} {i : Bits}

theorem bankRead_of_ge (h : s.cfg.bankEntries ≤ val i) : bankRead s i = .error .indexOutOfRange :=
  if_neg (Nat.not_lt.mpr h)

theorem bankWrite_of_ge (h : s.cfg.bankEntries ≤ val i) (v : Bits) : bankWrite s i v = .error .indexOutOfRange :=
  if_neg (Nat.not_lt.mpr h)

theorem bankWrite_of_length_ne {v : Bits} (h : val i < s.cfg.bankEntries) (hv : v.length ≠ s.cfg.w) :
    bankWrite s i v = .error .widthMismatch := by
  rw [bankWrite, if_pos h, if_neg hv]

theorem phtRead_of_ge (h : s.cfg.phtEntries ≤ val i) : phtRead s i = .error .indexOutOfRange :=
  if_neg (Nat.not_lt.mpr h)

theorem phtWrite_of_ge (h : s.cfg.phtEntries ≤ val i) (v : Bits) : phtWrite s i v = .error .indexOutOfRange :=
  if_neg (Nat.not_lt.mpr h)

theorem bankRead_of_bankWrite {v : Bits} {t : State} (hs : Cells.wf (zeros s.cfg.w) s.bank)
    (ht : bankWrite s i v = .ok t) : bankRead t i = .ok v := by
  obtain ⟨hi, -, rfl⟩ := bankWrite_eq_ok.mp ht
  exact bankRead_eq_ok.mpr ⟨hi, (Cells.read_write_same hs.1 _ _).symm⟩

theorem bankRead_of_bankWrite_ne {v j : Bits} {t : State} (ht : bankWrite s i v = .ok t) (hj : val j ≠ val i) :
    bankRead t j = bankRead s j := by
  obtain ⟨-, -, rfl⟩ := bankWrite_eq_ok.mp ht
  simp only [bankRead, State.bankCell, State.withBank_cfg, State.withBank_bank, Cells.read_write_ne _ _ hj]

theorem phtRead_of_phtWrite {v : Bits} {t : State} (hs : Cells.wf (zeros s.cfg.s) s.pht)
    (ht : phtWrite s i v = .ok t) : phtRead t i = .ok v := by
  obtain ⟨hi, rfl⟩ := phtWrite_eq_ok.mp ht
  exact phtRead_eq_ok.mpr ⟨hi, (Cells.read_write_same hs.1 _ _).symm⟩

theorem phtRead_of_phtWrite_ne {v j : Bits} {t : State} (ht : phtWrite s i v = .ok t) (hj : val j ≠ val i) :
    phtRead t j = phtRead s j := by
  obtain ⟨-, rfl⟩ := phtWrite_eq_ok.mp ht
  simp only [phtRead, State.phtCell, State.withPht_cfg, State.withPht_pht, Cells.read_write_ne _ _ hj]

end

/-- Settles O17: the laws of a bank read after a bank write, and the checks in the order index, width. -/
theorem bankReadAfterWrite : Obligations.BankReadAfterWrite := by
  refine ⟨fun r v => ⟨loadReg_of_length, loadReg_of_length_ne⟩, fun s i v hs =>
    ⟨fun hi hv => ?_, bankWrite_of_length_ne, fun hi => ⟨bankRead_of_ge hi, bankWrite_of_ge hi v⟩⟩⟩
  have ht := bankWrite_eq_ok.mpr ⟨hi, hv, rfl⟩
  exact ⟨_, ht, bankRead_of_bankWrite hs ht, fun j hj => bankRead_of_bankWrite_ne ht hj, rfl⟩

/-- Settles O18: the laws of a PHT read after a `put`, and the index check of both. -/
theorem phtReadAfterWrite : Obligations.PhtReadAfterWrite := by
  refine fun s k v hs => ⟨fun hk => ?_, fun hk => ⟨phtRead_of_ge hk, phtWrite_of_ge hk v⟩⟩
  have ht := (phtWrite_eq_ok (v := v)).mpr ⟨hk, rfl⟩
  exact ⟨_, ht, phtRead_of_phtWrite hs ht, fun j hj => phtRead_of_phtWrite_ne ht hj, rfl⟩

end Sys2Proof.Machine
end

section
/-! PROOFS. The XOR fold (spec/40_primitives.md R93, R94): its loop over a sequence cut in two, over one whole round of
positions and over the XOR of two inputs; from these its closed form, its laws and its fibres. -/

namespace Sys2Proof.Machine

/-! ## XOR of two BitVectors -/

theorem zipWith_bitXor_zeros (v : Bits) : List.zipWith bitXor v (zeros v.length) = v := by
  induction v with
  | nil => rfl
  | cons b v ih => simpa [zeros, List.replicate_succ, bitXor] using ih

theorem zeros_zipWith_bitXor (v : Bits) : List.zipWith bitXor (zeros v.length) v = v := by
  rw [List.zipWith_comm_of_comm (f := bitXor) Bool.xor_comm, zipWith_bitXor_zeros]

/-- XOR with `g` undoes itself. -/
theorem zipWith_bitXor_cancel_right {h g : Bits} (hl : h.length = g.length) :
    List.zipWith bitXor (List.zipWith bitXor h g) g = h := by
  refine List.ext_getElem (by simp [hl]) fun e _ _ => ?_
  simp [bitXor]

theorem zipWith_bitXor_eq_iff {u g h : Bits} (hu : u.length = g.length) (hh : h.length = g.length) :
    List.zipWith bitXor u g = h ↔ u = List.zipWith bitXor h g := by
  constructor
  · rintro rfl
    exact (zipWith_bitXor_cancel_right hu).symm
  · rintro rfl
    exact zipWith_bitXor_cancel_right hh

theorem zipWith_bitXor_modify (g h : Bits) (p : Nat) (a b : Bit) :
    List.zipWith bitXor (g.modify p (fun x => bitXor x a)) (h.modify p (fun x => bitXor x b)) =
      (List.zipWith bitXor g h).modify p (fun x => bitXor x (bitXor a b)) := by
  refine List.ext_getElem (by simp) fun e _ _ => ?_
  simp only [List.getElem_zipWith, List.getElem_modify]
  split
  · simp [bitXor, Bool.xor_left_comm]
  · rfl

theorem elem_modify {h : Bits} {j : Nat} (hj : j < h.length) (p : Nat) (f : Bit → Bit) :
    elem (h.modify p f) j = if p = j then f (elem h j) else elem h j := by
  simp [elem, hj, List.getElem_modify]

/-! ## The loop -/

theorem foldFrom_append (k i : Nat) (h u v : Bits) :
    foldFrom k i h (u ++ v) = foldFrom k (i + u.length) (foldFrom k i h u) v := by
  induction u generalizing i h with
  | nil => rfl
  | cons b u ih => rw [List.cons_append, foldFrom, ih, foldFrom, List.length_cons, Nat.add_right_comm, Nat.add_assoc]

/-- The loop numbers its positions modulo `K`. -/
theorem foldFrom_add_self (k i : Nat) (h v : Bits) : foldFrom k (i + k) h v = foldFrom k i h v := by
  induction v generalizing i h with
  | nil => rfl
  | cons b v ih => rw [foldFrom, Nat.add_right_comm, ih, Nat.add_mod_right, foldFrom]

theorem foldFrom_zeros (k i : Nat) (h : Bits) (n : Nat) : foldFrom k i h (zeros n) = h := by
  induction n generalizing i with
  | zero => rfl
  | succ n ih =>
    have hid : (fun x => bitXor x false) = id := funext Bool.xor_false
    rw [zeros, List.replicate_succ, foldFrom, hid, List.modify_id, ← zeros, ih]

/-- The loop is linear in the accumulator and the input together. -/
theorem foldFrom_zipWith_bitXor (k i : Nat) (g h : Bits) {u v : Bits} (hl : u.length = v.length) :
    foldFrom k i (List.zipWith bitXor g h) (List.zipWith bitXor u v) =
      List.zipWith bitXor (foldFrom k i g u) (foldFrom k i h v) := by
  induction u generalizing i g h v with
  | nil =>
    obtain rfl : v = [] := List.length_eq_zero_iff.mp hl.symm
    rfl
  | cons a u ih =>
    cases v with
    | nil => simp at hl
    | cons b v =>
      rw [List.zipWith_cons_cons, foldFrom, ← zipWith_bitXor_modify, ih _ _ _ (Nat.succ.inj hl), foldFrom, foldFrom]

/-- A loop that starts from `h` is the fold of its input, XORed into `h`. -/
theorem foldFrom_eq_zipWith_fold (h v : Bits) : foldFrom h.length 0 h v = List.zipWith bitXor h (fold v h.length) := by
  have hlin := foldFrom_zipWith_bitXor h.length 0 h (zeros h.length) (length_zeros v.length)
  rwa [zipWith_bitXor_zeros, zeros_zipWith_bitXor, foldFrom_zeros] at hlin

/-- In the first round each element replaces the zero at its own position. -/
theorem foldFrom_first_round (p v : Bits) {n : Nat} (hn : v.length ≤ n) :
    foldFrom (p.length + n) p.length (p ++ zeros n) v = p ++ v ++ zeros (n - v.length) := by
  induction v generalizing p n with
  | nil => simp [foldFrom]
  | cons b v ih =>
    obtain ⟨n, rfl⟩ := Nat.exists_eq_add_of_lt (Nat.lt_of_lt_of_le (Nat.succ_pos _) hn)
    rw [Nat.zero_add] at hn ⊢
    have hpos : p.length % (p.length + (n + 1)) = p.length := Nat.mod_eq_of_lt (by omega)
    have hset : (p ++ zeros (n + 1)).modify p.length (fun x => bitXor x b) = p ++ [b] ++ zeros n := by
      simp [zeros, List.replicate_succ, List.modify_eq_take_drop, bitXor]
    have hrest := ih (p ++ [b]) (Nat.le_of_succ_le_succ hn)
    rw [List.length_append, List.length_singleton, Nat.add_assoc, Nat.add_comm 1 n] at hrest
    rw [foldFrom, hpos, hset, hrest]
    simp

/-! ## The laws -/

theorem fold_of_length_le {v : Bits} {k : Nat} (h : v.length ≤ k) : fold v k = v ++ zeros (k - v.length) := by
  simpa [fold] using foldFrom_first_round [] v h

theorem fold_self (v : Bits) : fold v v.length = v := by
  simpa [zeros] using fold_of_length_le (Nat.le_refl v.length)

theorem fold_zeros (n k : Nat) : fold (zeros n) k = zeros k := foldFrom_zeros k 0 (zeros k) n

theorem fold_zipWith_bitXor {u v : Bits} (k : Nat) (hl : u.length = v.length) :
    fold (List.zipWith bitXor u v) k = List.zipWith bitXor (fold u k) (fold v k) := by
  have hzeros : List.zipWith bitXor (zeros k) (zeros k) = zeros k := by simpa using zipWith_bitXor_zeros (zeros k)
  simpa only [hzeros, fold] using foldFrom_zipWith_bitXor k 0 (zeros k) (zeros k) hl

/-- The chunk law: the loop is back at position 0 after the chunk, with the chunk as its accumulator. -/
theorem fold_append (u v : Bits) : fold (u ++ v) u.length = List.zipWith bitXor u (fold v u.length) := by
  rw [fold, foldFrom_append, foldFrom_add_self, ← fold, fold_self, foldFrom_eq_zipWith_fold]

theorem fold_one (v : Bits) : fold v 1 = [decide (v.count true % 2 = 1)] := by
  induction v with
  | nil => rfl
  | cons b v ih =>
    have hchunk := fold_append [b] v
    rw [List.length_singleton, ih] at hchunk
    rw [← List.singleton_append, hchunk]
    have hparity : (v.count true + 1) % 2 = 1 ↔ ¬ v.count true % 2 = 1 := by omega
    cases b
    · simp [bitXor]
    · simp [bitXor, hparity, -Nat.mod_two_not_eq_one]

/-- Settles O22: the laws of this section, one for each clause. -/
theorem foldLaws : Obligations.FoldLaws := by
  refine ⟨fun v _ => fold_self v, fun v k _ hk => ?_, fold_one, fun n k _ => fold_zeros n k,
    fun u v k _ hl => fold_zipWith_bitXor k hl, fun u v _ => fold_append u v⟩
  simp [fold_of_length_le hk, val_append]

/-! ## The closed form -/

theorem fold_concat (v : Bits) (b : Bit) (k : Nat) :
    fold (v ++ [b]) k = (fold v k).modify (v.length % k) (fun x => bitXor x b) := by
  rw [fold, foldFrom_append, Nat.zero_add]
  rfl

/-- The right side of R93's closed form: the XOR of the elements whose number is `j` modulo `K`. -/
def xorOfResidue (v : Bits) (k j : Nat) : Bit :=
  ((List.range v.length).filter (fun i => i % k == j)).foldl (fun acc i => bitXor acc (elem v i)) false

theorem xorOfResidue_concat (v : Bits) (b : Bit) (k j : Nat) :
    xorOfResidue (v ++ [b]) k j =
      if v.length % k = j then bitXor (xorOfResidue v k j) b else xorOfResidue v k j := by
  have hlast : elem (v ++ [b]) v.length = b := by simp [elem]
  have hold : ∀ acc, ∀ i ∈ (List.range v.length).filter (fun i => i % k == j),
      bitXor acc (elem (v ++ [b]) i) = bitXor acc (elem v i) := by
    intro acc i hi
    have hlt : i < v.length := List.mem_range.mp (List.mem_of_mem_filter hi)
    simp [elem, List.getElem?_append_left hlt]
  rw [xorOfResidue, List.length_append, List.length_singleton, List.range_succ, List.filter_append, List.foldl_append,
    List.foldl_ext _ _ _ hold, ← xorOfResidue]
  by_cases hj : v.length % k = j
  · simp [hj, hlast]
  · simp [hj]

theorem elem_fold (v : Bits) {k j : Nat} (hj : j < k) : elem (fold v k) j = xorOfResidue v k j := by
  induction v using List.reverseRecOn with
  | nil => simp [fold, foldFrom, xorOfResidue, elem, zeros, hj]
  | append_singleton v b ih => rw [fold_concat, elem_modify (by simpa using hj), ih, xorOfResidue_concat]

/-- Settles O21: by induction on the input from its end, each new element entering both sides at its residue. -/
theorem foldClosedForm : Obligations.FoldClosedForm :=
  fun v k _ => ⟨length_fold v k, fun _ hj => elem_fold v hj⟩

/-! ## The fibres -/

/-- Whatever follows the first chunk, exactly one first chunk gives a wanted fold. -/
theorem fold_append_eq_iff {u h : Bits} (v : Bits) (hl : u.length = h.length) :
    fold (u ++ v) h.length = h ↔ u = List.zipWith bitXor h (fold v h.length) := by
  rw [← hl, fold_append, zipWith_bitXor_eq_iff (by simp) (by simp [hl])]

/-- The one first chunk that makes an input with the rest `v` fold to `h`, in front of that rest. -/
def completeToFold (h : Bits) {m : Nat} (v : Fin m → Bool) : Fin (h.length + m) → Bool :=
  Fin.append (fun e => elem (List.zipWith bitXor h (fold (List.ofFn v) h.length)) e) v

theorem ofFn_elem {v : Bits} {n : Nat} (h : v.length = n) : List.ofFn (fun e : Fin n => elem v e) = v := by
  subst h
  simp [elem]

theorem ofFn_completeToFold (h : Bits) {m : Nat} (v : Fin m → Bool) :
    List.ofFn (completeToFold h v) = List.zipWith bitXor h (fold (List.ofFn v) h.length) ++ List.ofFn v := by
  rw [completeToFold, List.ofFn_fin_append, ofFn_elem (by simp)]

theorem completeToFold_natAdd (h : Bits) {m : Nat} (v : Fin m → Bool) :
    (fun e => completeToFold h v (Fin.natAdd h.length e)) = v :=
  funext fun e => Fin.append_right _ v e

theorem fold_ofFn_eq_iff (h : Bits) {m : Nat} (v : Fin (h.length + m) → Bool) :
    fold (List.ofFn v) h.length = h ↔ v = completeToFold h (fun e => v (Fin.natAdd h.length e)) := by
  rw [← List.ofFn_inj, ofFn_completeToFold, List.ofFn_add, fold_append_eq_iff _ (by simp), List.append_left_inj]

/-- Settles O23: the inputs that fold to `h` correspond to the `2^(N−K)` possible rests after the first chunk. -/
theorem foldFibres : Obligations.FoldFibres := by
  rintro n _ h - hkn rfl
  obtain ⟨m, rfl⟩ := Nat.exists_eq_add_of_le hkn
  have hcard : (Finset.univ.filter fun v : Fin (h.length + m) → Bool => fold (List.ofFn v) h.length = h).card =
      (Finset.univ : Finset (Fin m → Bool)).card := by
    refine Finset.card_nbij' (fun v e => v (Fin.natAdd h.length e)) (completeToFold h) (fun v _ => by simp)
      (fun w _ => ?_) (fun v hv => ?_) (fun w _ => completeToFold_natAdd h w)
    · simp [fold_ofFn_eq_iff, completeToFold_natAdd]
    · exact ((fold_ofFn_eq_iff h v).mp (by simpa using hv)).symm
  rw [hcard]
  simp

end Sys2Proof.Machine
end

section
/-! PROOFS. The bank index, the history and the key of each variant, with their widths and the number of the cell
(spec/41_common_state_machine.md R102 to R104, spec/20_memory.md R43). -/

namespace Sys2Proof.Machine

section
variable {c : Config}

theorem bankidx_of_takesIB (hv : c.variant.takesIB = true) (addr : Bits) : bankidx c addr = low addr c.ib := by
  cases hc : c.variant <;> simp_all [Variant.takesIB, bankidx]

theorem bankidx_of_sap (hv : c.variant = .sap) (addr : Bits) : bankidx c addr = fold addr c.k := by
  simp [bankidx, hv]

/-- GAg and PAg index one global table: their keys carry no tag. -/
theorem keyTag_of_gag_or_pag (hv : c.variant = .gag ∨ c.variant = .pag) (addr : Bits) : keyTag c addr = [] := by
  rcases hv with hv | hv <;> simp [keyTag, hv]

theorem keyTag_of_pap_or_sap (hv : c.variant = .pap ∨ c.variant = .sap) (addr : Bits) : keyTag c addr = addr := by
  rcases hv with hv | hv <;> simp [keyTag, hv]

theorem keyTag_of_pas (hv : c.variant = .pas) (addr : Bits) : keyTag c addr = fold addr c.k := by
  simp [keyTag, hv]

end

section
variable {s : State} {addr : Bits}

theorem key_of_hist {h : Bits} (hh : hist s addr = .ok h) : key s addr = .ok (keyTag s.cfg addr ++ h) :=
  key_eq_ok.mpr ⟨h, hh, rfl⟩

theorem key_of_gag (hv : s.cfg.variant = .gag) (addr : Bits) : key s addr = .ok s.bhr := by
  rw [key_of_hist (hist_of_gag hv addr), keyTag_of_gag_or_pag (.inl hv), List.nil_append]

section
variable (hs : s.Inv) (ha : addr.length = s.cfg.a)
include hs ha

theorem hist_eq_bankCell (hv : s.cfg.variant ≠ .gag) :
    hist s addr = .ok (s.bankCell (val (bankidx s.cfg addr))) := by
  rw [hist_of_ne_gag hv, bankRead_eq_ok]
  exact ⟨val_bankidx_lt hs hv ha, rfl⟩

theorem key_eq_tag_append_bankCell {i tag : Bits} (hv : s.cfg.variant ≠ .gag) (hi : bankidx s.cfg addr = i)
    (htag : keyTag s.cfg addr = tag) : key s addr = .ok (tag ++ s.bankCell (val i)) := by
  rw [key_of_hist (hist_eq_bankCell hs ha hv), hi, htag]

theorem length_tag_append_hist {h : Bits} (hh : hist s addr = .ok h) :
    (keyTag s.cfg addr ++ h).length = s.cfg.keyWidth := by
  rw [List.length_append, length_keyTag ha, length_hist hs hh, Config.keyWidth]

end
end

/-- Settles O24: the key is the tag in front of the selected history; each variant has its own tag and selection. -/
theorem keyOfEachVariant : Obligations.KeyOfEachVariant := by
  intro s addr hs ha
  obtain ⟨h, hh⟩ := exists_hist_eq_ok hs ha
  refine ⟨fun hv => ⟨hist_of_gag hv addr, key_of_gag hv addr⟩, fun hv => ?_, fun hv => ?_, fun hv => ?_,
    fun hv => ?_, fun hv => ⟨length_bankidx hs.legal ha, hist_eq_bankCell hs ha hv⟩,
    h, _, hh, length_hist hs hh, key_of_hist hh, length_tag_append_hist hs ha hh, ?_, val_tag_append_hist_lt hs ha hh⟩
  · have hidx := bankidx_of_takesIB (by rw [hv]; rfl) addr
    exact ⟨hidx, key_eq_tag_append_bankCell hs ha (by simp [hv]) hidx (keyTag_of_gag_or_pag (.inr hv) addr)⟩
  · have hidx := bankidx_of_takesIB (by rw [hv]; rfl) addr
    exact ⟨hidx, key_eq_tag_append_bankCell hs ha (by simp [hv]) hidx (keyTag_of_pap_or_sap (.inl hv) addr)⟩
  · have hidx := bankidx_of_takesIB (by rw [hv]; rfl) addr
    exact ⟨hidx, key_eq_tag_append_bankCell hs ha (by simp [hv]) hidx (keyTag_of_pas hv addr)⟩
  · have hidx := bankidx_of_sap hv addr
    exact ⟨hidx, key_eq_tag_append_bankCell hs ha (by simp [hv]) hidx (keyTag_of_pap_or_sap (.inr hv) addr)⟩
  · rw [val_append, length_hist hs hh]

end Sys2Proof.Machine
end

section
/-! PROOFS. PREDICT and the transaction it opens: when it completes, what it leaves unchanged, its repetition, and the
UPDATE that follows it (spec/41_common_state_machine.md R105, R108, R109, R111). -/

namespace Sys2Proof.Machine

/-- Settles O39: the PREDICT's state is `afterPredict`, which has these fields from the state before. -/
theorem predictFrame : Obligations.PredictFrame := by
  intro i s t hi hx
  obtain ⟨-, -, k, -, -, -, rfl⟩ := (exec_predict_eq_next hi).mp hx
  exact ⟨rfl, rfl, rfl, rfl, rfl, rfl⟩

/-- Settles O41: the first PREDICT leaves all that the key is formed from (`key_congr`) and the cell in `CTR`, so that
the second loads the same cell. -/
theorem predictTwiceIsPredictOnce : Obligations.PredictTwiceIsPredictOnce := by
  intro i s t hi hx
  obtain ⟨hv, ha, k, hk, hlt, -, rfl⟩ := (exec_predict_eq_next hi).mp hx
  have hkey : key (afterPredict s i.addr k) i.addr = .ok k := (key_congr rfl rfl rfl _).trans hk
  exact (exec_predict_eq_next hi).mpr ⟨hv, ha, k, hkey, hlt, rfl, rfl⟩

section
variable {s : State} (hs : s.Inv)
include hs

theorem exec_predictOf {addr h : Bits} (ha : addr.length = s.cfg.a) (hh : hist s addr = .ok h) :
    exec (predictOf s.cfg.variant addr) s = .next (afterPredict s addr (keyTag s.cfg addr ++ h)) := by
  rw [exec_predict_eq_next (actual_predictOf _ _), variant_predictOf, addr_predictOf]
  exact ⟨rfl, ha, _, key_of_hist hh, val_tag_append_hist_lt hs ha hh, (length_phtCell hs _).trans hs.ctr_width.symm,
    rfl⟩

theorem phtCell_afterUpdate_same (addr : Bits) (r : BranchResult) (h k : Bits) :
    (afterUpdate s addr r h k).phtCell (val k) = advance s.ctr (decide (r = .taken)) :=
  Cells.read_write_same hs.pht_wf.1 _ _

theorem trained_afterUpdate (addr : Bits) (r : BranchResult) (h k : Bits) :
    Trained s (afterUpdate s addr r h k) addr r k where
  cell := phtCell_afterUpdate_same hs addr r h k
  other_cells := fun _ hj => phtCell_afterUpdate_ne _ _ _ _ _ hj
  ctr := rfl
  pend := rfl
  paddr := rfl
  pviol := rfl
  cfg := rfl
  inputs := rfl
  rsp := rfl

end

/-- Settles O27: without a tag the key is the history, and what a PREDICT loads and answers depends on the key alone. -/
theorem sameHistorySameAnswer : Obligations.SameHistorySameAnswer := by
  intro s a b hs hv ha hb hab
  obtain ⟨h, hh⟩ := exists_hist_eq_ok hs ha
  have htag : keyTag s.cfg a = keyTag s.cfg b := by
    rw [keyTag_of_gag_or_pag hv, keyTag_of_gag_or_pag hv]
  exact ⟨_, _, exec_predictOf hs ha hh, exec_predictOf hs hb (hab.symm.trans hh), by simp [htag], by simp [htag]⟩

/-- Settles O42: the PREDICT leaves every history, so that the UPDATE trains the cell that the PREDICT has put in
`CTR`. -/
theorem transactionEffect : Obligations.TransactionEffect := by
  intro s addr r hs ha
  obtain ⟨h, hh⟩ := exists_hist_eq_ok hs ha
  have hpredicted := inv_afterPredict hs ha (keyTag s.cfg addr ++ h)
  have hhist : hist (afterPredict s addr (keyTag s.cfg addr ++ h)) addr = .ok h := (hist_congr rfl rfl rfl _).trans hh
  have htrained := trained_afterUpdate hpredicted addr r h (keyTag s.cfg addr ++ h)
  exact ⟨h, _, _, _, hh, key_of_hist hh, exec_predictOf hs ha hh, exec_updateOf hpredicted ha hhist r, rfl,
    htrained.cell, htrained.other_cells, hist_afterUpdate_of_bankidx_eq hpredicted ha rfl r h _,
    fun j hj => bankCell_afterUpdate_ne _ _ _ _ _ (.inr hj), rfl, rfl, by simp [violates], rfl, rfl⟩

end Sys2Proof.Machine
end

section
/-! PROOFS. UPDATE: that it does not read the PHT, and the protocol state machine whose arcs it and PREDICT are
(spec/41_common_state_machine.md R101, R106). -/

namespace Sys2Proof.Machine

/-- Settles O43: what makes an UPDATE complete mentions no cell, and the value it writes is formed from `CTR`. -/
theorem updateDoesNotReadThePht : Obligations.UpdateDoesNotReadThePht := by
  intro i s t m r hi hx
  obtain ⟨hv, ha, hp, h, k, hh, hk, hlt, hw, rfl⟩ := (exec_update_eq_next hi).mp hx
  have hhist : hist (s.withPht m) i.addr = .ok h := (hist_congr rfl rfl rfl _).trans hh
  have hkey : key (s.withPht m) i.addr = .ok k := (key_congr rfl rfl rfl _).trans hk
  exact ⟨_, val k, advance s.ctr (decide (r = .taken)),
    (exec_update_eq_next hi).mpr ⟨hv, ha, hp, h, k, hhist, hkey, hlt, hw, rfl⟩, rfl, rfl, rfl⟩

theorem protocol_eq_pending_iff {s : State} {addr : Bits} :
    s.protocol = .pending addr ↔ s.pend = true ∧ s.paddr = addr := by
  cases hp : s.pend <;> simp [State.protocol, hp]

theorem violates_of_pending {s : State} {addr : Bits} (h : s.protocol = .pending addr) :
    violates s addr = s.pviol := by
  obtain ⟨hpend, hpaddr⟩ := protocol_eq_pending_iff.mp h
  simp [violates, hpend, hpaddr]

theorem violates_of_not_pending {s : State} {addr : Bits} (h : s.protocol ≠ .pending addr) :
    violates s addr = true := by
  have hillegal : (s.pend && decide (s.paddr = addr)) = false := by simpa [protocol_eq_pending_iff] using h
  simp [violates, hillegal]

/-- Settles O48: PREDICT's arcs are read off `afterPredict` and UPDATE's off `afterUpdate`, which performs the datapath
in whatever protocol state it was given. -/
theorem protocolStateMachine : Obligations.ProtocolStateMachine := by
  refine ⟨fun _ => rfl, fun i s t hx => ?_⟩
  obtain ⟨k, hi, -, -, rfl⟩ | ⟨r, h, k, hi, hh, hk, -, rfl⟩ := exec_cases hx
  · simp [hi, protocol_eq_pending_iff]
  · refine ⟨by simp [hi], fun _ => ⟨rfl, rfl⟩, fun _ => violates_of_pending, fun _ => violates_of_not_pending,
      fun r' hr' hs => ?_⟩
    obtain rfl : r = r' := by simpa [hi] using hr'
    exact ⟨h, k, hh, hk, trained_afterUpdate hs _ _ _ _,
      hist_afterUpdate_of_bankidx_eq hs (exec_addr_length hx) rfl _ _ _⟩

end Sys2Proof.Machine
end

section
/-! PROOFS. Each variant's own rule is the generic command with that variant's `bankidx`, `hist` and `key`, errors
included (spec/41_common_state_machine.md R100, R105, R106). -/

namespace Sys2Proof.Machine

theorem atPort_of_fits {v : Variant} {addr : Bits} {s : State} (hv : s.cfg.variant = v) (ha : addr.length = s.cfg.a)
    (x : Except Fault State) : atPort v addr s x = finish x := by
  rw [atPort, if_pos hv, if_pos ha]

theorem noteUpdate_cfg {addr : Bits} {s s1 : State} (h : noteUpdate addr s = .ok s1) : s1.cfg = s.cfg := by
  obtain ⟨-, rfl⟩ := noteUpdate_eq_ok.mp h
  rfl

/-- The generic PREDICT with `key` resolved into `hist` and the tag. -/
theorem genericPredict_eq (addr : Bits) (s : State) :
    genericPredict addr s = hist s addr >>= fun h => predictAt (keyTag s.cfg addr ++ h) addr s := by
  cases hh : hist s addr with
  | error f =>
    simp only [genericPredict, key, hh]
    rfl
  | ok h => simp only [genericPredict, key_of_hist hh, except_ok_bind]

/-- The generic UPDATE of a bank variant with `hist`, `key` and the choice of the history register resolved: one entry
of the bank is read and shifted. -/
theorem genericUpdate_of_ne_gag {s : State} (hv : s.cfg.variant ≠ .gag) (addr : Bits) (r : BranchResult) :
    genericUpdate addr r s = (do
      let s1 ← noteUpdate addr s
      let h ← bankRead s1 (bankidx s.cfg addr)
      let s2 ← trainAt (keyTag s.cfg addr ++ h) r s1
      return noAnswer (← shiftBank (bankidx s.cfg addr) h r s2)) := by
  cases hn : noteUpdate addr s with
  | error f =>
    simp only [genericUpdate, hn]
    rfl
  | ok s1 =>
    have hc := noteUpdate_cfg hn
    have hhist : hist s1 addr = bankRead s1 (bankidx s.cfg addr) := by rw [hist_of_ne_gag (by rwa [hc]), hc]
    simp only [genericUpdate, hn, except_ok_bind, key, hhist, hc]
    cases hh : bankRead s1 (bankidx s.cfg addr) with
    | error f => rfl
    | ok h =>
      simp only [except_ok_bind]
      cases hv' : s.cfg.variant
      case gag => exact absurd hv' hv
      case pag | pap | pas | sap => rfl

theorem genericUpdate_of_gag {s : State} (hv : s.cfg.variant = .gag) (addr : Bits) (r : BranchResult) :
    genericUpdate addr r s = (do
      let s1 ← noteUpdate addr s
      let s2 ← trainAt s1.bhr r s1
      return noAnswer (shiftBhr s1.bhr r s2)) := by
  cases hn : noteUpdate addr s with
  | error f =>
    simp only [genericUpdate, hn]
    rfl
  | ok s1 =>
    have hv1 : s1.cfg.variant = .gag := by rwa [noteUpdate_cfg hn]
    simp only [genericUpdate, hn, except_ok_bind, hist_of_gag hv1, key_of_gag hv1, hv]

section
variable {s : State} {addr : Bits} (ha : addr.length = s.cfg.a)
include ha

theorem exec_predictOf_eq_generic : exec (predictOf s.cfg.variant addr) s = finish (genericPredict addr s) := by
  rw [genericPredict_eq, ← atPort_of_fits rfl ha]
  cases hv : s.cfg.variant
  case gag =>
    rw [hist_of_gag hv, keyTag_of_gag_or_pag (.inl hv)]
    rfl
  case pag | pap | pas | sap =>
    rw [hist_of_ne_gag (by simp [hv])]
    simp only [bankidx, keyTag, hv]
    rfl

theorem exec_updateOf_eq_generic (r : BranchResult) :
    exec (updateOf s.cfg.variant addr r) s = finish (genericUpdate addr r s) := by
  rw [← atPort_of_fits rfl ha]
  cases hv : s.cfg.variant
  case gag =>
    rw [genericUpdate_of_gag hv]
    rfl
  case pag | pap | pas | sap =>
    rw [genericUpdate_of_ne_gag (by simp [hv])]
    simp only [bankidx, keyTag, hv]
    rfl

end

/-- Settles O38: an address of `A` bits passes the port, and behind it the two rules are the same sequence of
operations. -/
theorem commandsAreTheGenericOnes : Obligations.CommandsAreTheGenericOnes :=
  fun _ _ r ha => ⟨exec_predictOf_eq_generic ha, exec_updateOf_eq_generic ha r⟩

end Sys2Proof.Machine
end

section
/-! PROOFS. The two commands of GAg: the command each word is at the port, the state each leaves, and the corner cases of a
zero counter and a saturated history (spec/42_gag.md R115, R116). -/

namespace Sys2Proof.Machine

/-! ## The words at the port -/

section
variable {s : State} {addr : Bits} (ha : addr.length = s.cfg.a)
include ha

theorem readPort_predict_word (b : Bit) : readPort s (addr ++ [b, false]) = .ok (predictOf s.cfg.variant addr) :=
  readPort_eq_ok.mpr (decode_append_pair ha b false)

theorem readPort_update_word (r : BranchResult) :
    readPort s (addr ++ [tbit r, true]) = .ok (updateOf s.cfg.variant addr r) := by
  rw [readPort_eq_ok, decode_append_pair ha, dir_tbit]
  rfl

end

/-! ## The corner cases -/

theorem direction_zeros (n : Nat) : direction (zeros n) = .notTaken := by
  cases n <;> rfl

/-- A saturated history: shifting in the Bit that every element already is changes nothing. -/
theorem insertBit_replicate (n : Nat) (b : Bit) : insertBit (List.replicate n b) b = List.replicate n b := by
  rw [insertBit, ← List.replicate_succ', List.tail_replicate, Nat.add_sub_cancel]

/-! ## The two commands -/

section
variable {s : State} (hs : s.Inv) (hv : s.cfg.variant = .gag) {addr : Bits} (ha : addr.length = s.cfg.a)
include hs hv ha

theorem exec_gagPredict : exec (.gagPredict addr) s = .next (afterPredict s addr s.bhr) := by
  have hx := exec_predictOf hs ha (hist_of_gag hv addr)
  rwa [hv, keyTag_of_gag_or_pag (.inl hv), List.nil_append] at hx

theorem exec_gagUpdate (r : BranchResult) :
    exec (.gagUpdate addr r) s = .next (afterUpdate s addr r s.bhr s.bhr) := by
  have hx := exec_updateOf hs ha (hist_of_gag hv addr) r
  rwa [hv, keyTag_of_gag_or_pag (.inl hv), List.nil_append] at hx

end

theorem shiftedBhr_afterUpdate {s : State} (hv : s.cfg.variant = .gag) (addr : Bits) (r : BranchResult) (k : Bits) :
    ShiftedBhr s (afterUpdate s addr r s.bhr k) r where
  bhr := afterUpdate_bhr_of_gag _ _ _ _ _ hv
  bank := afterUpdate_bank_of_gag _ _ _ _ _ hv

/-- Settles O28: the key is `BHR` (`exec_gagPredict`); a repeated PREDICT changes nothing (`predictTwiceIsPredictOnce`),
and a cell of the reset instance is zero (`direction_zeros`). -/
theorem gagPredictResult : Obligations.GagPredictResult := by
  intro s addr hs hv ha
  have hx := exec_gagPredict hs hv ha
  refine ⟨fun b => ?_, hx, predictTwiceIsPredictOnce _ _ _ rfl hx, fun hinit => ?_⟩
  · rw [readPort_predict_word ha, hv]
    rfl
  · rw [hinit, afterPredict_rsp, phtCell_init, direction_zeros]

/-- Settles O29: the cell at the pre-update `BHR` is trained (`trained_afterUpdate`) and `BHR` shifted
(`shiftedBhr_afterUpdate`); a saturated history stays by `insertBit_replicate`. -/
theorem gagUpdateResult : Obligations.GagUpdateResult := by
  intro s addr r hs hv ha
  have hshift := shiftedBhr_afterUpdate hv addr r s.bhr
  refine ⟨?_, _, exec_gagUpdate hs hv ha r, trained_afterUpdate hs addr r s.bhr s.bhr, hshift, fun hall => ?_⟩
  · rw [readPort_update_word ha, hv]
    rfl
  · rw [hshift.bhr, hall, insertBit_replicate]

end Sys2Proof.Machine
end

section
/-! PROOFS. The two commands of a bank variant, for whatever bank index and tag the variant forms from the address; and so
the two commands of PAg (spec/41_common_state_machine.md R105, R106, spec/43_pag.md R120, R121). -/

namespace Sys2Proof.Machine

/-! ## Any bank variant -/

section
variable {s : State} (hs : s.Inv) (hv : s.cfg.variant ≠ .gag)
include hs hv

theorem shiftedBank_afterUpdate (addr : Bits) (r : BranchResult) (k : Bits) :
    ShiftedBank s (afterUpdate s addr r (s.bankCell (val (bankidx s.cfg addr))) k) r (bankidx s.cfg addr) where
  entry := by rw [bankCell_afterUpdate hs hv, if_pos rfl]
  other_entries := fun _ hj => bankCell_afterUpdate_ne _ _ _ _ _ (.inr hj)
  bhr := afterUpdate_bhr_of_ne_gag _ _ _ _ _ hv

variable {addr i tag : Bits} (ha : addr.length = s.cfg.a) (hi : bankidx s.cfg addr = i)
  (htag : keyTag s.cfg addr = tag)
include ha hi htag

/-- A bank variant's PREDICT reads the cell at the tag in front of the selected entry. -/
theorem exec_predictOf_of_ne_gag : exec (predictOf s.cfg.variant addr) s =
    .next (afterPredict s addr (tag ++ s.bankCell (val i))) := by
  rw [exec_predictOf hs ha (hist_eq_bankCell hs ha hv), hi, htag]

/-- A bank variant's UPDATE trains the cell at the tag in front of the selected entry, as that entry was before, and
shifts the entry. -/
theorem exec_updateOf_of_ne_gag (r : BranchResult) : ∃ t : State, exec (updateOf s.cfg.variant addr r) s = .next t ∧
    Trained s t addr r (tag ++ s.bankCell (val i)) ∧ ShiftedBank s t r i := by
  subst hi htag
  exact ⟨_, exec_updateOf hs ha (hist_eq_bankCell hs ha hv) r, trained_afterUpdate hs addr r _ _,
    shiftedBank_afterUpdate hs hv addr r _⟩

end

/-! ## PAg: the index is the low-order bits of the address, and there is no tag -/

/-- Settles O30: the key is the selected entry itself (`keyTag_of_gag_or_pag`). -/
theorem pagPredictResult : Obligations.PagPredictResult := by
  intro s addr hs hv ha
  have hidx := bankidx_of_takesIB (by rw [hv]; rfl) addr
  have hx := exec_predictOf_of_ne_gag hs (by simp [hv]) ha hidx (keyTag_of_gag_or_pag (.inr hv) addr)
  have hword := readPort_predict_word ha
  rw [hv] at hx hword
  exact ⟨hword, hx⟩

/-- Settles O31: the key is the selected entry itself (`keyTag_of_gag_or_pag`), as it was before the shift. -/
theorem pagUpdateResult : Obligations.PagUpdateResult := by
  intro s addr r hs hv ha
  have hidx := bankidx_of_takesIB (by rw [hv]; rfl) addr
  have hx := exec_updateOf_of_ne_gag hs (by simp [hv]) ha hidx (keyTag_of_gag_or_pag (.inr hv) addr) r
  have hword := readPort_update_word ha r
  rw [hv] at hx hword
  exact ⟨hword, hx⟩

end Sys2Proof.Machine
end

section
/-! PROOFS. Where the key starts with the whole address, an address owns the PHT cells whose number has the address in its
high-order bits: its key is one of them in every state, and only its own commands change them (spec/44_pap.md R127,
spec/46_sap.md R137, spec/41_common_state_machine.md R109). -/

namespace Sys2Proof.Machine

/-- A cell is in the block of the `2^W` cells from `m·2^W` on exactly when its number has `m` above its low `W` bits. -/
theorem mem_block_iff_div_eq {w m j : Nat} : m * 2 ^ w ≤ j ∧ j < (m + 1) * 2 ^ w ↔ j / 2 ^ w = m := by
  rw [Nat.div_eq_iff (Nat.two_pow_pos w), Nat.le_sub_one_iff_lt (by positivity),
    Nat.add_one_mul]

section
variable {s : State} (hs : s.Inv) (hv : s.cfg.variant = .pap ∨ s.cfg.variant = .sap)
include hs hv

/-- The high-order bits of the key are the address. -/
theorem val_key_div_eq {addr k : Bits} (hk : key s addr = .ok k) : val k / 2 ^ s.cfg.w = val addr := by
  obtain ⟨h, hh, rfl⟩ := key_eq_ok.mp hk
  have hlt := val_lt_two_pow h
  rw [keyTag_of_pap_or_sap hv, val_append]
  rw [length_hist hs hh] at hlt ⊢
  rw [Nat.mul_comm, Nat.mul_add_div (Nat.two_pow_pos _), Nat.div_eq_of_lt hlt, Nat.add_zero]

theorem phtCell_of_exec_of_addr_ne {i : Instr} {t : State} (hx : exec i s = .next t) {a : Bits}
    (ha : a.length = s.cfg.a) (hne : i.addr ≠ a) {j : Nat} (hj : j / 2 ^ s.cfg.w = val a) :
    t.phtCell j = s.phtCell j := by
  obtain ⟨k, -, -, -, rfl⟩ | ⟨r, h, k, -, -, hk, -, rfl⟩ := exec_cases hx
  · rfl
  · have hval : val i.addr ≠ val a := fun heq => hne (eq_of_val_eq ((exec_addr_length hx).trans ha.symm) heq)
    refine phtCell_afterUpdate_ne _ _ _ _ _ fun hjk => hval ?_
    rw [← val_key_div_eq hs hv hk, ← hjk, hj]

end

/-- Settles O25: the high-order bits of a key are its address (`val_key_div_eq`), and a command writes no cell but the one
at its own key (`phtCell_of_exec_of_addr_ne`). -/
theorem addressTaggedCellsArePrivate : Obligations.AddressTaggedCellsArePrivate := by
  intro s a hs hv ha
  refine ⟨?_, fun u b k l hu hc hb hab hk hl hkl => hab ?_, fun i t hx hne j hlo hhi => ?_⟩
  · obtain ⟨h, hh⟩ := exists_hist_eq_ok hs ha
    have hk := key_of_hist hh
    exact ⟨_, hk, mem_block_iff_div_eq.mpr (val_key_div_eq hs hv hk)⟩
  · have hdiv := val_key_div_eq hu (by rwa [hc]) hl
    rw [hc, ← hkl, val_key_div_eq hs hv hk] at hdiv
    exact eq_of_val_eq (ha.trans hb.symm) hdiv
  · exact phtCell_of_exec_of_addr_ne hs hv hx ha hne (mem_block_iff_div_eq.mp ⟨hlo, hhi⟩)

end Sys2Proof.Machine
end

section
/-! PROOFS. The two commands of PAp; and over a run of commands that select other history registers and have other
addresses, an address keeps its history and its cells (spec/44_pap.md R125 to R127). -/

namespace Sys2Proof.Machine

/-! ## The words and the effects of a bank variant's commands together -/

section
variable {s : State} (hs : s.Inv) {v : Variant} (hv : s.cfg.variant = v) (hne : v ≠ .gag) {addr i tag : Bits}
  (ha : addr.length = s.cfg.a) (hi : bankidx s.cfg addr = i) (htag : keyTag s.cfg addr = tag)
include hs hv hne ha hi htag

theorem predict_word_and_effect_of_ne_gag :
    (∀ b, readPort s (addr ++ [b, false]) = .ok (predictOf v addr)) ∧
    exec (predictOf v addr) s = .next (afterPredict s addr (tag ++ s.bankCell (val i))) := by
  subst hv
  exact ⟨readPort_predict_word ha, exec_predictOf_of_ne_gag hs hne ha hi htag⟩

theorem update_word_and_effect_of_ne_gag (r : BranchResult) :
    readPort s (addr ++ [tbit r, true]) = .ok (updateOf v addr r) ∧
    ∃ t : State, exec (updateOf v addr r) s = .next t ∧
      Trained s t addr r (tag ++ s.bankCell (val i)) ∧ ShiftedBank s t r i := by
  subst hv
  exact ⟨readPort_update_word ha r, exec_updateOf_of_ne_gag hs hne ha hi htag r⟩

end

/-! ## PAp: the index is the low-order bits of the address, and the tag is the address -/

/-- Settles O32: the tag is the whole address (`keyTag_of_pap_or_sap`). -/
theorem papPredictResult : Obligations.PapPredictResult := fun _ addr hs hv ha =>
  predict_word_and_effect_of_ne_gag hs hv (by decide) ha (bankidx_of_takesIB (by rw [hv]; rfl) addr)
    (keyTag_of_pap_or_sap (.inl hv) addr)

/-- Settles O33: the tag is the whole address (`keyTag_of_pap_or_sap`), the history the entry before its shift. -/
theorem papUpdateResult : Obligations.PapUpdateResult := fun _ addr r hs hv ha =>
  update_word_and_effect_of_ne_gag hs hv (by decide) ha (bankidx_of_takesIB (by rw [hv]; rfl) addr)
    (keyTag_of_pap_or_sap (.inl hv) addr) r

/-! ## Runs of other addresses -/

theorem Run.cfg {is : List Instr} {s t : State} (hrun : Run is s t) : t.cfg = s.cfg := by
  induction hrun with
  | nil s => rfl
  | cons hx _ ih => exact ih.trans (by simpa using exec_cfg hx)

theorem Run.inv {is : List Instr} {s t : State} (hrun : Run is s t) (hs : s.Inv) : t.Inv := by
  induction hrun with
  | nil s => exact hs
  | cons hx _ ih => exact ih (inv_of_exec (inv_withInputs hs []) hx)

theorem hist_of_exec_of_bankidx_ne {s t : State} (hs : s.Inv) {i : Instr} (hx : exec i s = .next t) {b : Bits}
    (hb : b.length = s.cfg.a) (hidx : bankidx s.cfg i.addr ≠ bankidx s.cfg b) : hist t b = hist s b := by
  obtain ⟨k, -, -, -, rfl⟩ | ⟨r, h, k, -, -, -, -, rfl⟩ := exec_cases hx
  · exact hist_congr rfl rfl rfl _
  · exact hist_afterUpdate_of_bankidx_ne hs (exec_addr_length hx) hb hidx r h k

theorem Run.hist_of_bankidx_ne {is : List Instr} {s t : State} (hrun : Run is s t) (hs : s.Inv) {b : Bits}
    (hb : b.length = s.cfg.a) (hidx : ∀ i ∈ is, bankidx s.cfg i.addr ≠ bankidx s.cfg b) : hist t b = hist s b := by
  induction hrun with
  | nil s => rfl
  | @cons i is s u t hx _ ih =>
    have hcfg : u.cfg = s.cfg := by simpa using exec_cfg hx
    obtain ⟨hi, his⟩ := List.forall_mem_cons.mp hidx
    have hs' := inv_withInputs hs []
    calc hist t b = hist u b := ih (inv_of_exec hs' hx) (by rwa [hcfg]) (by rwa [hcfg])
      _ = hist (s.withInputs []) b := hist_of_exec_of_bankidx_ne hs' hx hb hi
      _ = hist s b := hist_congr rfl rfl rfl b

theorem Run.phtCell_of_addr_ne {is : List Instr} {s t : State} (hrun : Run is s t) (hs : s.Inv)
    (hv : s.cfg.variant = .pap ∨ s.cfg.variant = .sap) {b : Bits} (hb : b.length = s.cfg.a)
    (hne : ∀ i ∈ is, i.addr ≠ b) {j : Nat} (hj : j / 2 ^ s.cfg.w = val b) : t.phtCell j = s.phtCell j := by
  induction hrun with
  | nil s => rfl
  | @cons i is s u t hx _ ih =>
    have hcfg : u.cfg = s.cfg := by simpa using exec_cfg hx
    obtain ⟨hi, his⟩ := List.forall_mem_cons.mp hne
    have hs' := inv_withInputs hs []
    calc t.phtCell j = u.phtCell j :=
          ih (inv_of_exec hs' hx) (by rwa [hcfg]) (by rwa [hcfg]) his (by rwa [hcfg])
      _ = s.phtCell j := phtCell_of_exec_of_addr_ne hs' hv hx hb hi hj

/-- With `IB = A` every address has a history register of its own (R127). -/
theorem bankidx_eq_addr {c : Config} (hv : c.variant.takesIB = true) (hib : c.ib = c.a) {addr : Bits}
    (ha : addr.length = c.a) : bankidx c addr = addr := by
  simp [bankidx_of_takesIB hv, low, hib, ha]

/-- Settles O58: a PREDICT depends on the history register of its address and on the cell at its key. The run keeps the
one because, with `IB = A`, the other addresses select other registers (`Run.hist_of_bankidx_ne`), and the other because
it is a cell of the address (`Run.phtCell_of_addr_ne`). -/
theorem papPredictionIsIndependentOfOtherAddresses : Obligations.PapPredictionIsIndependentOfOtherAddresses := by
  intro s t is b hs hv hib hb hfit hne hrunOn
  have hrun := (runOn_present_eq_next hfit).mp hrunOn
  have hcfg := hrun.cfg
  have hvt : t.cfg.variant = .pap := by rw [hcfg, hv]
  have hidx : ∀ i ∈ is, bankidx s.cfg i.addr ≠ bankidx s.cfg b := fun i hi => by
    obtain ⟨-, ha⟩ := Instr.wf_iff.mp (List.all_eq_true.mp hfit i hi)
    have htakes : s.cfg.variant.takesIB = true := by rw [hv]; rfl
    rw [bankidx_eq_addr htakes hib ha, bankidx_eq_addr htakes hib hb]
    exact hne i hi
  obtain ⟨h, hh⟩ := exists_hist_eq_ok hs hb
  have hht : hist t b = .ok h := (hrun.hist_of_bankidx_ne hs hb hidx).trans hh
  have hcell := hrun.phtCell_of_addr_ne hs (.inl hv) hb hne (val_key_div_eq hs (.inl hv) (key_of_hist hh))
  have hxs := exec_predictOf hs hb hh
  have hxt := exec_predictOf (hrun.inv hs) (by rwa [hcfg]) hht
  rw [hv] at hxs
  rw [hvt, hcfg] at hxt
  exact ⟨_, _, hxs, hxt, hcell, by rw [afterPredict_rsp, afterPredict_rsp, hcell]⟩

end Sys2Proof.Machine
end

section
/-! PROOFS. The two commands of PAs, and when two addresses have the same PHT cell: the tag of the key is the fold of
the address, one-to-one where `K` is at least `A` (spec/45_pas.md R130 to R132). -/

namespace Sys2Proof.Machine

/-! ## The fold as a tag, and the key -/

/-- A fold at least as wide as the address keeps every element of it (R94 a and b). -/
theorem fold_injective_of_length_le {a b : Bits} {k : Nat} (hl : a.length = b.length) (hk : a.length ≤ k)
    (h : fold a k = fold b k) : a = b := by
  rw [fold_of_length_le hk, fold_of_length_le (hl ▸ hk)] at h
  exact List.append_inj_left h hl

theorem key_of_pas {s : State} (hs : s.Inv) (hv : s.cfg.variant = .pas) {addr : Bits} (ha : addr.length = s.cfg.a) :
    key s addr = .ok (fold addr s.cfg.k ++ s.bankCell (val (low addr s.cfg.ib))) :=
  key_eq_tag_append_bankCell hs ha (by simp [hv]) (bankidx_of_takesIB (by rw [hv]; rfl) addr) (keyTag_of_pas hv addr)

/-- Settles O26: a cell number is one key only, since the keys have one width (`eq_of_val_eq`); and equal keys have
equal folds and equal histories, since the folds have one width too. -/
theorem pasKeysCollideWithinASet : Obligations.PasKeysCollideWithinASet := by
  intro s u a b k l hs hu hc hv ha hb hk hl
  rw [key_of_pas hs hv ha, Except.ok.injEq] at hk
  rw [key_of_pas hu (by rwa [hc]) (by rwa [hc]), hc, Except.ok.injEq] at hl
  have hwidth : k.length = l.length := by simp [← hk, ← hl, length_bankCell hs, length_bankCell hu, hc]
  constructor
  · intro hval
    have hkl := eq_of_val_eq hwidth hval
    rw [← hk, ← hl] at hkl
    exact List.append_inj hkl (by simp)
  · rintro ⟨hfold, hhist⟩
    rw [← hk, ← hl, hfold, hhist]

/-! ## PAs: the index is the low-order bits of the address, and the tag is the fold -/

/-- Settles O34: the tag is the fold (`keyTag_of_pas`), one-to-one where `K` is at least `A`
(`fold_injective_of_length_le`). -/
theorem pasPredictResult : Obligations.PasPredictResult := by
  intro s addr hs hv ha
  have hidx := bankidx_of_takesIB (by rw [hv]; rfl) addr
  obtain ⟨hword, hx⟩ := predict_word_and_effect_of_ne_gag hs hv (by decide) ha hidx (keyTag_of_pas hv addr)
  exact ⟨hword, hx, fun hle b hb => fold_injective_of_length_le (hb.trans ha.symm) (hb.trans_le hle)⟩

/-- Settles O35: the tag is the fold (`keyTag_of_pas`), the history the entry before its shift. -/
theorem pasUpdateResult : Obligations.PasUpdateResult := fun _ addr r hs hv ha =>
  update_word_and_effect_of_ne_gag hs hv (by decide) ha (bankidx_of_takesIB (by rw [hv]; rfl) addr)
    (keyTag_of_pas hv addr) r

end Sys2Proof.Machine
end

section
/-! PROOFS. The two commands of SAp: the fold of the address selects the history register, and the whole address is the
tag of the key (spec/46_sap.md R135, R136). -/

namespace Sys2Proof.Machine

/-- Settles O36: the index is the fold (`bankidx_of_sap`), the tag the whole address (`keyTag_of_pap_or_sap`). -/
theorem sapPredictResult : Obligations.SapPredictResult := fun _ addr hs hv ha =>
  predict_word_and_effect_of_ne_gag hs hv (by decide) ha (bankidx_of_sap hv addr) (keyTag_of_pap_or_sap (.inr hv) addr)

/-- Settles O37: the entry at the fold (`bankidx_of_sap`) is shifted, and the cell at the whole address
(`keyTag_of_pap_or_sap`) in front of that entry before its shift is trained. -/
theorem sapUpdateResult : Obligations.SapUpdateResult := fun _ addr r hs hv ha =>
  update_word_and_effect_of_ne_gag hs hv (by decide) ha (bankidx_of_sap hv addr) (keyTag_of_pap_or_sap (.inr hv) addr) r

end Sys2Proof.Machine
end

section
/-! PROOFS. Normal operation raises nothing and every run from a construction completes (spec/60_exceptions.md R145,
spec/70_reset_and_hazards.md R160, R170); an untrained table answers NOT_TAKEN (R162). -/

namespace Sys2Proof.Machine

section
variable {s : State} (hs : s.Inv)
include hs

theorem exists_exec_eq_next {i : Instr} (hi : i.wf s.cfg = true) : ∃ t, exec i s = .next t := by
  obtain ⟨hv, ha⟩ := Instr.wf_iff.mp hi
  obtain ⟨h, hh⟩ := exists_hist_eq_ok hs ha
  obtain hp | ⟨r, hu⟩ := i.eq_predictOf_or_updateOf
  · rw [hp, hv]
    exact ⟨_, exec_predictOf hs ha hh⟩
  · rw [hu, hv]
    exact ⟨_, exec_updateOf hs ha hh r⟩

theorem exists_run {is : List Instr} (hfit : allFit s.cfg is = true) : ∃ t, Run is s t := by
  induction is generalizing s with
  | nil => exact ⟨s, .nil s⟩
  | cons i is ih =>
    obtain ⟨hi, his⟩ : i.wf s.cfg = true ∧ allFit s.cfg is = true := by simpa [allFit] using hfit
    have hs' := inv_withInputs hs []
    obtain ⟨u, hx⟩ := exists_exec_eq_next hs' hi
    obtain ⟨t, hrun⟩ := ih (inv_of_exec hs' hx) (by rwa [exec_cfg hx])
    exact ⟨t, .cons hx hrun⟩

/-- The direction of a cell is TAKEN only from `2^(S-1)` on (R92). -/
theorem direction_phtCell_of_lt {j : Nat} (hj : val (s.phtCell j) < 2 ^ (s.cfg.s - 1)) :
    direction (s.phtCell j) = .notTaken := by
  obtain ⟨-, hS, -⟩ := Config.legal_iff.mp hs.legal
  have hlen := length_phtCell hs j
  have hne : s.phtCell j ≠ [] := List.ne_nil_of_length_pos (by omega)
  have hnot : direction (s.phtCell j) ≠ .taken := by
    rw [Ne, direction_eq_taken_iff_val hne, hlen]
    exact Nat.not_le.mpr hj
  cases hd : direction (s.phtCell j)
  case taken => exact absurd hd hnot
  case notTaken => rfl

end

/-- Settles O54: the history and the key of every address exist (`exists_exec_eq_next`), and every word of the port's
length is one of the commands (`everyPortWordIsOneCommand`). -/
theorem normalOperationRaisesNothing : Obligations.NormalOperationRaisesNothing := by
  refine ⟨fun s i hs hi => exists_exec_eq_next hs hi, fun s cw hs hlen => ?_⟩
  obtain ⟨i, hdecode, hi, -⟩ := (everyPortWordIsOneCommand s.cfg cw).1 hlen
  obtain ⟨t, hx⟩ := exists_exec_eq_next (inv_withInputs hs []) hi
  exact ⟨t, (stepRunsTheDecodedCommand (s.withInputs [.command cw]) cw [] i rfl hdecode).trans hx⟩

/-- Settles O55: a construction has the invariant, and from a state with it every run exists (`exists_run`) and keeps
it (`Run.inv`). -/
theorem runsFromConstructionComplete : Obligations.RunsFromConstructionComplete := by
  intro p s is hp hfit
  obtain ⟨-, -, hconstruct⟩ := constructedInstanceHasTheInvariants
  obtain ⟨hs, -⟩ := hconstruct p s hp
  obtain ⟨t, hrun⟩ := exists_run hs hfit
  exact ⟨t, (runOn_present_eq_next hfit).mpr hrun, hrun.inv hs⟩

/-- Settles O56: the answer is the direction of the cell at the key, one of the cells that the hypothesis bounds. -/
theorem untrainedAnswersNotTaken : Obligations.UntrainedAnswersNotTaken := by
  intro s addr hs ha hcells
  obtain ⟨h, hh⟩ := exists_hist_eq_ok hs ha
  have hcell := direction_phtCell_of_lt hs (hcells _ (val_tag_append_hist_lt hs ha hh))
  exact ⟨_, exec_predictOf hs ha hh, congrArg some hcell⟩

end Sys2Proof.Machine
end

section
/-! PROOFS. The errors: which parameters a construction rejects (spec/60_exceptions.md R141), that no step raises the
construction's error, and what stops a step at the port (R142); with nothing presented nothing happens (R149). -/

namespace Sys2Proof

/-! ## The `VARIANT` strap in numbers -/

theorem Variant.ofStrap_eq_some_iff {b : BitVec 3} {v : Variant} : Variant.ofStrap b = some v ↔ v.code = b := by
  refine ⟨Variant.code_of_ofStrap, fun h => ?_⟩
  subst h
  cases v <;> rfl

theorem Variant.exists_code_eq_iff {b : BitVec 3} : (∃ v : Variant, v.code = b) ↔ b.toNat ≤ 4 := by
  constructor
  · rintro ⟨v, rfl⟩
    cases v <;> decide
  · intro h
    have hsome : ∀ b : BitVec 3, b.toNat ≤ 4 → (Variant.ofStrap b).isSome = true := by decide
    obtain ⟨v, hv⟩ := Option.isSome_iff_exists.mp (hsome b h)
    exact ⟨v, Variant.code_of_ofStrap hv⟩

theorem Variant.takesK_iff (v : Variant) : v.takesK = true ↔ v.code.toNat = 3 ∨ v.code.toNat = 4 := by
  cases v <;> decide

theorem Variant.takesIB_iff (v : Variant) :
    v.takesIB = true ↔ v.code.toNat = 1 ∨ v.code.toNat = 2 ∨ v.code.toNat = 3 := by
  cases v <;> decide

namespace Machine

theorem exists_construct_eq_ok_iff {p : Straps} :
    (∃ s, construct p = .ok s) ↔ ∃ v : Variant, v.code = p.variant ∧ p.legalFor v = true := by
  constructor
  · rintro ⟨s, hs⟩
    obtain ⟨v, hv, hlegal, -⟩ := construct_eq_ok.mp hs
    exact ⟨v, Variant.ofStrap_eq_some_iff.mp hv, hlegal⟩
  · rintro ⟨v, hv, hlegal⟩
    exact ⟨_, construct_eq_ok.mpr ⟨v, Variant.ofStrap_eq_some_iff.mpr hv, hlegal, rfl⟩⟩

theorem eq_configurationError_of_construct {p : Straps} {f : Fault} (h : construct p = .error f) :
    f = .configurationError := by
  simp only [construct] at h
  split at h
  · cases h
    rfl
  · split at h
    · cases h
    · cases h
      rfl

/-! ## ConfigurationError is an error of construction alone -/

theorem except_bind_eq_error {α β : Type} {x : Except Fault α} {f : α → Except Fault β} {e : Fault} :
    (x >>= f) = .error e ↔ x = .error e ∨ ∃ a, x = .ok a ∧ f a = .error e := by
  cases x <;> simp [bind, Except.bind]

theorem except_map_eq_error {α β : Type} {f : α → β} {x : Except Fault α} {e : Fault} :
    f <$> x = .error e ↔ x = .error e := by
  cases x <;> simp [Functor.map, Except.map]

section
variable (s : State) (i v : Bits)

theorem bankRead_ne_configurationError : bankRead s i ≠ .error .configurationError := by
  rw [bankRead]
  split <;> nofun

theorem bankWrite_ne_configurationError : bankWrite s i v ≠ .error .configurationError := by
  rw [bankWrite]
  split
  · split <;> nofun
  · nofun

theorem phtRead_ne_configurationError : phtRead s i ≠ .error .configurationError := by
  rw [phtRead]
  split <;> nofun

theorem phtWrite_ne_configurationError : phtWrite s i v ≠ .error .configurationError := by
  rw [phtWrite]
  split <;> nofun

theorem loadReg_ne_configurationError (r : Bits) : loadReg r v ≠ .error .configurationError := by
  rw [loadReg]
  split <;> nofun

theorem noteUpdate_ne_configurationError (addr : Bits) : noteUpdate addr s ≠ .error .configurationError := by
  rw [noteUpdate, compareBits]
  split_ifs <;> nofun

theorem hist_ne_configurationError (addr : Bits) : hist s addr ≠ .error .configurationError := by
  by_cases hv : s.cfg.variant = .gag
  · rw [hist_of_gag hv]
    nofun
  · rw [hist_of_ne_gag hv]
    exact bankRead_ne_configurationError s _

theorem predictAt_ne_configurationError (k addr : Bits) : predictAt k addr s ≠ .error .configurationError := by
  simp [predictAt, except_bind_eq_error, phtRead_ne_configurationError, loadReg_ne_configurationError,
    except_map_eq_error]

theorem genericPredict_ne_configurationError (addr : Bits) : genericPredict addr s ≠ .error .configurationError := by
  simp [genericPredict_eq, except_bind_eq_error, hist_ne_configurationError, predictAt_ne_configurationError]

theorem genericUpdate_ne_configurationError (addr : Bits) (r : BranchResult) :
    genericUpdate addr r s ≠ .error .configurationError := by
  by_cases hv : s.cfg.variant = .gag
  · simp [genericUpdate_of_gag hv, trainAt, except_bind_eq_error, noteUpdate_ne_configurationError,
      phtWrite_ne_configurationError, except_map_eq_error]
  · simp [genericUpdate_of_ne_gag hv, trainAt, shiftBank, except_bind_eq_error, noteUpdate_ne_configurationError,
      bankRead_ne_configurationError, phtWrite_ne_configurationError, bankWrite_ne_configurationError,
      except_map_eq_error]

end

theorem finish_eq_fault {x : Except Fault State} {f : Fault} : finish x = .fault f ↔ x = .error f := by
  cases x <;> simp [finish]

theorem atPort_of_length_ne {v : Variant} {addr : Bits} {s : State} (hv : s.cfg.variant = v)
    (ha : addr.length ≠ s.cfg.a) (x : Except Fault State) : atPort v addr s x = .fault .widthMismatch := by
  rw [atPort, if_pos hv, if_neg ha]

theorem exec_of_addr_length_ne {i : Instr} {s : State} (hv : i.variant = s.cfg.variant)
    (ha : i.addr.length ≠ s.cfg.a) : exec i s = .fault .widthMismatch := by
  obtain ⟨x, hx⟩ := exec_eq_atPort i s
  rw [hx, atPort_of_length_ne hv.symm ha]

theorem exec_ne_configurationError (i : Instr) (s : State) : exec i s ≠ .fault .configurationError := by
  by_cases hv : i.variant = s.cfg.variant
  · by_cases ha : i.addr.length = s.cfg.a
    · obtain hp | ⟨r, hu⟩ := i.eq_predictOf_or_updateOf
      · rw [hp, hv, exec_predictOf_eq_generic ha, Ne, finish_eq_fault]
        exact genericPredict_ne_configurationError s _
      · rw [hu, hv, exec_updateOf_eq_generic ha, Ne, finish_eq_fault]
        exact genericUpdate_ne_configurationError s _ r
    · rw [exec_of_addr_length_ne hv ha]
      nofun
  · rw [otherVariantsCommandIsRefused.1 s i hv]
    nofun

theorem readPort_of_length_ne {s : State} {cw : Bits} (h : cw.length ≠ s.cfg.a + 2) :
    readPort s cw = .error .widthMismatch := by
  rw [readPort, decode_of_length_ne h]

theorem step_of_length_ne {s : State} {cw : Bits} {rest : List Input} (hin : s.inputs = .command cw :: rest)
    (h : cw.length ≠ s.cfg.a + 2) : step s = .fault .widthMismatch := by
  simp only [step, hin, readPort_of_length_ne h]

/-- Settles O8: the step takes the first input, and there is none. -/
theorem stepWithoutInputChangesNothing : Obligations.StepWithoutInputChangesNothing := by
  intro s hin
  simp only [step, hin]

/-- Settles O9: the word stops at the port (`step_of_length_ne`), the address at the command's own check
(`exec_of_addr_length_ne`). -/
theorem wrongWidthAborts : Obligations.WrongWidthAborts :=
  ⟨fun _ _ _ => step_of_length_ne, fun _ _ => exec_of_addr_length_ne⟩

theorem step_ne_configurationError (s : State) : step s ≠ .fault .configurationError := by
  rcases hin : s.inputs with _ | ⟨cw | _, rest⟩
  · rw [stepWithoutInputChangesNothing s hin]
    nofun
  · by_cases hlen : cw.length = s.cfg.a + 2
    · obtain ⟨i, hdecode, -⟩ := (everyPortWordIsOneCommand s.cfg cw).1 hlen
      rw [stepRunsTheDecodedCommand s cw rest i hin hdecode]
      exact exec_ne_configurationError i _
    · rw [step_of_length_ne hin hlen]
      nofun
  · rw [step_of_reset hin]
    nofun

/-- Settles O12: a construction succeeds for legal straps of the variant that the strap's value selects
(`exists_construct_eq_ok_iff`), with that value read as a number; and no operation of a step raises its error. -/
theorem constructionLegality : Obligations.ConstructionLegality := by
  refine fun p => ⟨exists_construct_eq_ok_iff.trans ⟨?_, ?_⟩, fun _ => eq_configurationError_of_construct,
    step_ne_configurationError⟩
  · rintro ⟨v, hv, hlegal⟩
    rw [Straps.legalFor_iff, v.takesK_iff, v.takesIB_iff, hv] at hlegal
    exact ⟨Variant.exists_code_eq_iff.mp ⟨v, hv⟩, hlegal⟩
  · rintro ⟨hcode, hwidths⟩
    obtain ⟨v, hv⟩ := Variant.exists_code_eq_iff.mpr hcode
    rw [← hv, ← v.takesK_iff, ← v.takesIB_iff] at hwidths
    exact ⟨v, hv, Straps.legalFor_iff.mpr hwidths⟩

end Machine

end Sys2Proof
end
